-- ==== Sys2Proof/Word.lean ====
section
/-!
DEFINITION. The block's word types (00_scope.md R9): a byte is 8 bits, `crc`, `F_LEN`, `F_CRC` and
`F_CALC` are 16 bits; all values are unsigned.
-/

namespace Sys2Proof

/-- A byte: 8 bits, an unsigned value 0 to 255 (R9). -/
abbrev Byte := BitVec 8

/-- A 16-bit value: the CRC register and the two-byte fields of a frame (R23, R27, R110). -/
abbrev Half := BitVec 16

end Sys2Proof
end

