-- ==== Sys2Proof/Config.lean ====
section
/-!
DEFINITION. The constants the hardware fixes (00_scope.md R8) and the parameters of an implementation
(R7), which are fixed when the block is built and which no operation changes. A parameter's type holds
exactly its legal values, so no illegal configuration can be written (log 2).
-/

namespace Sys2Proof

namespace Config

/-- `START`, the fixed start byte of a frame (R8). -/
def startMark : Byte := 0x68
/-- `END`, the fixed end byte of a frame (R8). -/
def endMark : Byte := 0x16
/-- `POLY`, x^16 + x^12 + x^5 + 1 with the x^16 term implied (R8, R100). -/
def poly : Half := 0x1021
/-- `INIT`, the CRC's initial value (R8, R100). -/
def crcInit : Half := 0x0000
/-- `HDR_FIXED`: 2 (source) + 2 (destination) + 1 (function) (R8). -/
def hdrFixed : Nat := 5
/-- `OVERHEAD` and `MIN_FRAME`: the bytes of a frame that are not payload (R8). -/
def minFrame : Nat := 11
/-- `FN_WRITE` (R8, R77). -/
def fnWrite : Byte := 0x29
/-- `FN_READ` (R8, R77). -/
def fnRead : Byte := 0x40
/-- `ACK_A9` (R8, R77). -/
def ackA9 : Byte := 0xa9
/-- `ACK_C0` (R8, R77). -/
def ackC0 : Byte := 0xc0

end Config

/-- `ACK_OFFSET`, 6 or 7 (R7, R166). -/
inductive AckOffset where
  | six
  | seven
deriving DecidableEq, Repr

/-- The index of the acknowledgement byte, the start byte being index 0 (R7, R166). -/
def AckOffset.index : AckOffset → Nat
  | .six => 6
  | .seven => 7

/-- `CAND_MAX`: unbounded, or a number of bytes from 11 to 65541 (R7). -/
inductive CandMax where
  | unbounded
  | atMost (bytes : Nat) (legal : 11 ≤ bytes ∧ bytes ≤ 65541)
deriving DecidableEq, Repr

/-- A sequence of `n` bytes is no longer than `CAND_MAX`. -/
def CandMax.admits : CandMax → Nat → Bool
  | .unbounded, _ => true
  | .atMost m _, n => decide (n ≤ m)

/-- The parameters of the block (R7). -/
structure Params where
  /-- `PAYLOAD_MAX`, 0 to 65530: the largest payload `ENC` accepts. -/
  payloadMax : Fin 65531
  /-- `CAND_MAX`: the longest candidate RXD collects and FCHK takes. -/
  candMax : CandMax
  /-- `ACK_OFFSET`: the index of the acknowledgement byte. -/
  ackOffset : AckOffset
deriving DecidableEq, Repr

/-- The defaults of R7: 65530, unbounded, 7. -/
def Params.default : Params := ⟨⟨65530, by decide⟩, .unbounded, .seven⟩

end Sys2Proof
end

