-- ==== Sys2Proof/Syntax.lean ====
section
/-!
DEFINITION. The instructions: one constructor for each row of spec/opcode_table.json, and the form in
which what the block is given arrives (a transaction with an operation code and typed operands, R78; the
reset event, R180; and the table's other encoding spaces, each kept apart from the operation codes).
-/

namespace Sys2Proof

/-- One constructor per row of spec/opcode_table.json, in the table's order. -/
inductive Instr where
  /-- CRC.CLR (R104). -/
  | crcClr
  /-- CRC.UPD b (R105). -/
  | crcUpd (b : Byte)
  /-- CRC.RD (R106). -/
  | crcRd
  /-- ENC dst, src, fn, payload (R122): four byte sequences, each with its length. -/
  | enc (dst src fn payload : List Byte)
  /-- RX.BYTE b (R142). -/
  | rxByte (b : Byte)
  /-- RX.FLUSH (R147). -/
  | rxFlush
  /-- VERIFY f (R163). -/
  | verify (f : List Byte)
  /-- PARSE f (R164). -/
  | parse (f : List Byte)
  /-- SRST (R181). -/
  | srst
  /-- CLRERR (R182). -/
  | clrErr
  /-- An operation whose code is none of the ten (R79, R194). -/
  | unassignedOp (op : Byte)
  /-- The reset event RESET (R180). -/
  | reset
  /-- The pseudo-operation CRC.BLK s (R83, R107). -/
  | crcBlk (s : List Byte)
  /-- The pseudo-operation SPLIT buf (R83, R148). -/
  | split (buf : List Byte)
  /-- The pseudo-operation CHECKALL (R83). -/
  | checkAll
  /-- The first eight bytes of a frame on the wire, 0x68 and these seven (R71, R72). -/
  | frameHead (lenLo lenHi src0 src1 dst0 dst1 fn : Byte)
  /-- The last three bytes of a frame on the wire, these two and 0x16 (R71, R72). -/
  | frameTail (crcHi crcLo : Byte)
  /-- A received byte of class START (R76). -/
  | startByte
  /-- A received byte of class END (R76). -/
  | endByte
  /-- A received byte of class DATA (R76). -/
  | dataByte (b : Byte)
  /-- The function byte FN_WRITE on the wire (R77). -/
  | fnWrite
  /-- The function byte FN_READ on the wire (R77). -/
  | fnRead
  /-- The acknowledgement byte ACK_A9 on the wire (R77). -/
  | ackA9
  /-- The acknowledgement byte ACK_C0 on the wire (R77). -/
  | ackC0
  /-- Cause 0x00: the clear after which no error is recorded (R191). -/
  | causeNone
  /-- Cause 0x01: an ENC whose destination is not 2 bytes (R191). -/
  | causeDstLen (dst src fn payload : List Byte)
  /-- Cause 0x02: an ENC whose source is not 2 bytes (R191). -/
  | causeSrcLen (dst src fn payload : List Byte)
  /-- Cause 0x03: an ENC whose function is not 1 byte (R191). -/
  | causeFnLen (dst src fn payload : List Byte)
  /-- Cause 0x04: an ENC whose payload is longer than `PAYLOAD_MAX` (R191). -/
  | causePayloadLen (dst src fn payload : List Byte)
  /-- Cause 0x10: an operation whose code is none of the ten (R191). -/
  | causeBadOp (op : Byte)
deriving DecidableEq, Repr

/-- The name spec/opcode_table.json gives each row. -/
def Instr.mnemonic : Instr → String
  | .crcClr => "CRC.CLR"
  | .crcUpd _ => "CRC.UPD"
  | .crcRd => "CRC.RD"
  | .enc _ _ _ _ => "ENC"
  | .rxByte _ => "RX.BYTE"
  | .rxFlush => "RX.FLUSH"
  | .verify _ => "VERIFY"
  | .parse _ => "PARSE"
  | .srst => "SRST"
  | .clrErr => "CLRERR"
  | .unassignedOp _ => "unassigned_op"
  | .reset => "RESET"
  | .crcBlk _ => "CRC.BLK"
  | .split _ => "SPLIT"
  | .checkAll => "CHECKALL"
  | .frameHead _ _ _ _ _ _ _ => "FRAME.HEAD"
  | .frameTail _ _ => "FRAME.TAIL"
  | .startByte => "START"
  | .endByte => "END"
  | .dataByte _ => "DATA"
  | .fnWrite => "FN_WRITE"
  | .fnRead => "FN_READ"
  | .ackA9 => "ACK_A9"
  | .ackC0 => "ACK_C0"
  | .causeNone => "E_CAUSE.NONE"
  | .causeDstLen _ _ _ _ => "E_CAUSE.DST_LEN"
  | .causeSrcLen _ _ _ _ => "E_CAUSE.SRC_LEN"
  | .causeFnLen _ _ _ _ => "E_CAUSE.FN_LEN"
  | .causePayloadLen _ _ _ _ => "E_CAUSE.PAYLOAD_LEN"
  | .causeBadOp _ => "E_CAUSE.BAD_OP"

/-- An operand carried beside the operation code as a typed value (R78): a byte, or a byte sequence
with its length. -/
inductive Operand where
  | byte (b : Byte)
  | bytes (s : List Byte)
deriving DecidableEq, Repr

/-- The three pseudo-operations (R83), which have no code. -/
inductive Pseudo where
  | crcBlk
  | split
  | checkAll
deriving DecidableEq, Repr

/-- What arrives at the block, before it is decoded. The constructors are the encoding spaces of
spec/opcode_table.json (its column `format`); only `op` and `event` are the block's own inputs, the
others are the table's names for sequences of those (log 5 to 9). -/
inductive Arrival where
  /-- OP: an operation code and its operands, on channel CMD or RXB (R78). -/
  | op (code : Byte) (operands : List Operand)
  /-- EVENT: the reset input (R180). -/
  | event
  /-- PSEUDO: a line of a host program that abbreviates several operations (R83). -/
  | pseudo (name : Pseudo) (operands : List Operand)
  /-- FRAME: the bytes of the fixed beginning or end of a frame on the wire, first byte first (R72). -/
  | frame (bytes : List Byte)
  /-- BYTECLASS: one received byte, told by its class (R76). -/
  | byteClass (b : Byte)
  /-- FNCODE: a function byte of a frame on the wire (R77). -/
  | fnCode (b : Byte)
  /-- ACKVALUE: an acknowledgement byte of a frame on the wire (R77). -/
  | ackValue (b : Byte)
  /-- CAUSE: an operation told by the cause code it ends with (R191). -/
  | cause (code : Byte) (operands : List Operand)
deriving DecidableEq, Repr

end Sys2Proof
end

