-- ==== Sys2Proof/WellFormed.lean ====
section
/-!
DEFINITION. Which instructions may be given to the machine (30_encoding.md R80). What this check refuses
never reaches `Machine.exec` through `Machine.step`.
-/

namespace Sys2Proof

/-- The ten assigned operation codes, as 60_exceptions.md R194 lists them. -/
def assignedOps : List Byte := [0x01, 0x02, 0x03, 0x10, 0x20, 0x21, 0x30, 0x31, 0x40, 0x41]

/-- The well-formedness check. An operand of VERIFY or PARSE is at most `CAND_MAX` bytes; the operands of
ENC may have any lengths (R80). An unassigned code is none of the ten (R79). A DATA byte is neither mark
(R76). A cause row's operands meet the row's condition, the earlier tests of R122 having passed (R191,
R199). -/
def Instr.wellFormed (p : Params) : Instr → Bool
  | .crcClr => true
  | .crcUpd _ => true
  | .crcRd => true
  | .enc _ _ _ _ => true
  | .rxByte _ => true
  | .rxFlush => true
  | .verify f => p.candMax.admits f.length
  | .parse f => p.candMax.admits f.length
  | .srst => true
  | .clrErr => true
  | .unassignedOp op => !assignedOps.contains op
  | .reset => true
  | .crcBlk _ => true
  | .split _ => true
  | .checkAll => true
  | .frameHead _ _ _ _ _ _ _ => true
  | .frameTail _ _ => true
  | .startByte => true
  | .endByte => true
  | .dataByte b => b != Config.startMark && b != Config.endMark
  | .fnWrite => true
  | .fnRead => true
  | .ackA9 => true
  | .ackC0 => true
  | .causeNone => true
  | .causeDstLen dst _ _ _ => dst.length != 2
  | .causeSrcLen dst src _ _ => dst.length == 2 && src.length != 2
  | .causeFnLen dst src fn _ => dst.length == 2 && src.length == 2 && fn.length != 1
  | .causePayloadLen dst src fn payload =>
      dst.length == 2 && src.length == 2 && fn.length == 1 && decide (p.payloadMax.val < payload.length)
  | .causeBadOp op => !assignedOps.contains op

end Sys2Proof
end

