-- ==== Sys2Proof/Decode.lean ====
section
/-!
DEFINITION. The decoder and the encoder, both written from the codes of 30_encoding.md (R71, R72, R76,
R77, R78) and 60_exceptions.md (R191). Decoding is total: an operation code that is none of the ten
decodes to `unassignedOp` whatever its operands (R79, R198); anything else that is no transaction of the
block is rejected by name.
-/

namespace Sys2Proof

/-- The ten operations of R78. -/
inductive OpName where
  | crcClr | crcUpd | crcRd | enc | rxByte | rxFlush | verify | parse | srst | clrErr
deriving DecidableEq, Repr

/-- The operation codes of R78. -/
def OpName.code : OpName → Byte
  | .crcClr => 0x01
  | .crcUpd => 0x02
  | .crcRd => 0x03
  | .enc => 0x10
  | .rxByte => 0x20
  | .rxFlush => 0x21
  | .verify => 0x30
  | .parse => 0x31
  | .srst => 0x40
  | .clrErr => 0x41

/-- The ten operations, in the order of the table. -/
def OpName.all : List OpName :=
  [.crcClr, .crcUpd, .crcRd, .enc, .rxByte, .rxFlush, .verify, .parse, .srst, .clrErr]

/-- The operation a code stands for, if any. -/
def opName? (code : Byte) : Option OpName := OpName.all.find? (fun o => o.code == code)

/-- The exceptions by sub-cause (R191). -/
inductive Cause where
  | dstLen | srcLen | fnLen | payloadLen | badOp
deriving DecidableEq, Repr

/-- The cause codes of R191, as written to `E_CAUSE`. -/
def Cause.code : Cause → Byte
  | .dstLen => 0x01
  | .srcLen => 0x02
  | .fnLen => 0x03
  | .payloadLen => 0x04
  | .badOp => 0x10

/-- The code 0x00 of `E_CAUSE`: no error since the last clear (R191). -/
def noCause : Byte := 0x00

/-- All the causes, in the order of the table. -/
def Cause.all : List Cause := [.dstLen, .srcLen, .fnLen, .payloadLen, .badOp]

/-- The cause a code stands for, if any. -/
def cause? (code : Byte) : Option Cause := Cause.all.find? (fun c => c.code == code)

/-- Why something is no transaction of the block. -/
inductive DecodeError where
  /-- An assigned operation code, or a cause code, with operands of another number or type (R78). -/
  | operandShape (code : Byte)
  /-- A pseudo-operation with operands of another number or type (R83). -/
  | pseudoShape
  /-- Wire bytes that are neither the beginning nor the end of a frame (R72). -/
  | frameShape
  /-- A function byte to which R77 gives no name. -/
  | functionCode (b : Byte)
  /-- An acknowledgement byte to which R77 gives no name. -/
  | ackValue (b : Byte)
  /-- A cause code that R191 does not list. -/
  | causeCode (code : Byte)
  /-- A transaction whose operands the well-formedness check refuses (R80). -/
  | illFormed
deriving DecidableEq, Repr

/-- Format OP. The code is looked at before the operands (R198). -/
def decodeOp (code : Byte) (operands : List Operand) : Except DecodeError Instr :=
  match opName? code, operands with
  | none, _ => .ok (.unassignedOp code)
  | some .crcClr, [] => .ok .crcClr
  | some .crcUpd, [.byte b] => .ok (.crcUpd b)
  | some .crcRd, [] => .ok .crcRd
  | some .enc, [.bytes dst, .bytes src, .bytes fn, .bytes payload] => .ok (.enc dst src fn payload)
  | some .rxByte, [.byte b] => .ok (.rxByte b)
  | some .rxFlush, [] => .ok .rxFlush
  | some .verify, [.bytes f] => .ok (.verify f)
  | some .parse, [.bytes f] => .ok (.parse f)
  | some .srst, [] => .ok .srst
  | some .clrErr, [] => .ok .clrErr
  | some _, _ => .error (.operandShape code)

/-- Format PSEUDO (R83). -/
def decodePseudo (name : Pseudo) (operands : List Operand) : Except DecodeError Instr :=
  match name, operands with
  | .crcBlk, [.bytes s] => .ok (.crcBlk s)
  | .split, [.bytes buf] => .ok (.split buf)
  | .checkAll, [] => .ok .checkAll
  | _, _ => .error .pseudoShape

/-- Format FRAME: eight bytes that begin with 0x68, or three that end with 0x16 (R72). -/
def decodeFrame (bytes : List Byte) : Except DecodeError Instr :=
  match bytes with
  | [m, l, L, s, S, d, D, f] =>
    if m = Config.startMark then .ok (.frameHead l L s S d D f) else .error .frameShape
  | [c, C, m] => if m = Config.endMark then .ok (.frameTail c C) else .error .frameShape
  | _ => .error .frameShape

/-- Format BYTECLASS: a full 8-bit comparison with the two marks (R76). -/
def decodeByteClass (b : Byte) : Instr :=
  if b = Config.startMark then .startByte
  else if b = Config.endMark then .endByte
  else .dataByte b

/-- Format FNCODE (R77). -/
def decodeFnCode (b : Byte) : Except DecodeError Instr :=
  if b = Config.fnWrite then .ok .fnWrite
  else if b = Config.fnRead then .ok .fnRead
  else .error (.functionCode b)

/-- Format ACKVALUE (R77). -/
def decodeAckValue (b : Byte) : Except DecodeError Instr :=
  if b = Config.ackA9 then .ok .ackA9
  else if b = Config.ackC0 then .ok .ackC0
  else .error (.ackValue b)

/-- Format CAUSE: the code, with the operands of the operation that ends with it (R191). -/
def decodeCause (code : Byte) (operands : List Operand) : Except DecodeError Instr :=
  if code = noCause then
    match operands with
    | [] => .ok .causeNone
    | _ => .error (.operandShape code)
  else
    match cause? code, operands with
    | some .dstLen, [.bytes dst, .bytes src, .bytes fn, .bytes payload] =>
        .ok (.causeDstLen dst src fn payload)
    | some .srcLen, [.bytes dst, .bytes src, .bytes fn, .bytes payload] =>
        .ok (.causeSrcLen dst src fn payload)
    | some .fnLen, [.bytes dst, .bytes src, .bytes fn, .bytes payload] =>
        .ok (.causeFnLen dst src fn payload)
    | some .payloadLen, [.bytes dst, .bytes src, .bytes fn, .bytes payload] =>
        .ok (.causePayloadLen dst src fn payload)
    | some .badOp, [.byte op] => .ok (.causeBadOp op)
    | some _, _ => .error (.operandShape code)
    | none, _ => .error (.causeCode code)

/-- Reading a transaction, before the well-formedness check. -/
def decodeRaw : Arrival → Except DecodeError Instr
  | .op code operands => decodeOp code operands
  | .event => .ok .reset
  | .pseudo name operands => decodePseudo name operands
  | .frame bytes => decodeFrame bytes
  | .byteClass b => .ok (decodeByteClass b)
  | .fnCode b => decodeFnCode b
  | .ackValue b => decodeAckValue b
  | .cause code operands => decodeCause code operands

/-- The decoder: a well-formed instruction, or a rejection by name (R80). -/
def decode (p : Params) (a : Arrival) : Except DecodeError Instr :=
  match decodeRaw a with
  | .ok i => if i.wellFormed p then .ok i else .error .illFormed
  | .error e => .error e

/-- The operands of an instruction, in the order of the table. -/
def Instr.operands : Instr → List Operand
  | .crcClr => []
  | .crcUpd b => [.byte b]
  | .crcRd => []
  | .enc dst src fn payload => [.bytes dst, .bytes src, .bytes fn, .bytes payload]
  | .rxByte b => [.byte b]
  | .rxFlush => []
  | .verify f => [.bytes f]
  | .parse f => [.bytes f]
  | .srst => []
  | .clrErr => []
  | .unassignedOp op => [.byte op]
  | .reset => []
  | .crcBlk s => [.bytes s]
  | .split buf => [.bytes buf]
  | .checkAll => []
  | .frameHead l L s S d D f => [.byte l, .byte L, .byte s, .byte S, .byte d, .byte D, .byte f]
  | .frameTail c C => [.byte c, .byte C]
  | .startByte => []
  | .endByte => []
  | .dataByte b => [.byte b]
  | .fnWrite => []
  | .fnRead => []
  | .ackA9 => []
  | .ackC0 => []
  | .causeNone => []
  | .causeDstLen dst src fn payload => [.bytes dst, .bytes src, .bytes fn, .bytes payload]
  | .causeSrcLen dst src fn payload => [.bytes dst, .bytes src, .bytes fn, .bytes payload]
  | .causeFnLen dst src fn payload => [.bytes dst, .bytes src, .bytes fn, .bytes payload]
  | .causePayloadLen dst src fn payload => [.bytes dst, .bytes src, .bytes fn, .bytes payload]
  | .causeBadOp op => [.byte op]

/-- The encoder: the transaction of an instruction, from the codes of R71, R76, R77, R78 and R191. An
unassigned operation has no operands of its own. -/
def encode (i : Instr) : Arrival :=
  match i with
  | .crcClr => .op 0x01 i.operands
  | .crcUpd _ => .op 0x02 i.operands
  | .crcRd => .op 0x03 i.operands
  | .enc _ _ _ _ => .op 0x10 i.operands
  | .rxByte _ => .op 0x20 i.operands
  | .rxFlush => .op 0x21 i.operands
  | .verify _ => .op 0x30 i.operands
  | .parse _ => .op 0x31 i.operands
  | .srst => .op 0x40 i.operands
  | .clrErr => .op 0x41 i.operands
  | .unassignedOp op => .op op []
  | .reset => .event
  | .crcBlk _ => .pseudo .crcBlk i.operands
  | .split _ => .pseudo .split i.operands
  | .checkAll => .pseudo .checkAll i.operands
  | .frameHead l L s S d D f => .frame [0x68, l, L, s, S, d, D, f]
  | .frameTail c C => .frame [c, C, 0x16]
  | .startByte => .byteClass 0x68
  | .endByte => .byteClass 0x16
  | .dataByte b => .byteClass b
  | .fnWrite => .fnCode 0x29
  | .fnRead => .fnCode 0x40
  | .ackA9 => .ackValue 0xa9
  | .ackC0 => .ackValue 0xc0
  | .causeNone => .cause 0x00 i.operands
  | .causeDstLen _ _ _ _ => .cause 0x01 i.operands
  | .causeSrcLen _ _ _ _ => .cause 0x02 i.operands
  | .causeFnLen _ _ _ _ => .cause 0x03 i.operands
  | .causePayloadLen _ _ _ _ => .cause 0x04 i.operands
  | .causeBadOp _ => .cause 0x10 i.operands

/-- The operands of an operation when the table gives them no bits: a zero byte, an empty sequence. -/
def zeroOperands (code : Byte) : List Operand :=
  match opName? code with
  | none => []
  | some .crcClr => []
  | some .crcUpd => [.byte 0x00]
  | some .crcRd => []
  | some .enc => [.bytes [], .bytes [], .bytes [], .bytes []]
  | some .rxByte => [.byte 0x00]
  | some .rxFlush => []
  | some .verify => [.bytes []]
  | some .parse => [.bytes []]
  | some .srst => []
  | some .clrErr => []

/-- The `n` low bytes of `w`, most significant first. -/
def bytesHighFirst : Nat → Nat → List Byte
  | 0, _ => []
  | n + 1, w => BitVec.ofNat 8 (w / 2 ^ (8 * n)) :: bytesHighFirst n w

/-- The transaction of a word of spec/opcode_table.json. An 8-bit word is an operation code, with zero
operands (log 12). A longer word is a FRAME row, whose pattern the table reads as one number, the last
byte of the pattern least significant. -/
def tableArrival (nbits w : Nat) : Arrival :=
  if nbits = 8 then .op (BitVec.ofNat 8 w) (zeroOperands (BitVec.ofNat 8 w))
  else .frame (bytesHighFirst (nbits / 8) w)

/-- The instruction the decoder reads from a word of spec/opcode_table.json. -/
def decodeTableWord (nbits w : Nat) : Option Instr :=
  match decode Params.default (tableArrival nbits w) with
  | .ok i => some i
  | .error _ => none

/-- A byte as two hexadecimal digits (R10, R82). -/
def hexByte (b : Byte) : String :=
  String.ofList [Nat.digitChar (b.toNat / 16), Nat.digitChar (b.toNat % 16)]

/-- The way a host program writes an operand (R82): a byte is `0x..`, a byte sequence is hexadecimal
bytes in square brackets. -/
def Operand.text : Operand → String
  | .byte b => "0x" ++ hexByte b
  | .bytes s => "[" ++ " ".intercalate (s.map hexByte) ++ "]"

/-- The line of a host program (R82): the mnemonic first, the operands after it separated by commas. -/
def Instr.text (i : Instr) : String :=
  match i.operands with
  | [] => i.mnemonic
  | ops => i.mnemonic ++ " " ++ ", ".intercalate (ops.map Operand.text)

end Sys2Proof
end

