-- ==== Sys2Proof/Machine/State.lean ====
section
/-!
DEFINITION. The state of the block as plain data (10_state.md R21 to R34), the answers on channel RSP,
why a step can stop, and the state after reset.
-/

namespace Sys2Proof.Machine

/-- Why the machine would stop with a fault. The spec gives none: its two exceptions, EncodingError and
BadOp, are answers after which the block goes on (R190, R196, R197), and every other operation always
succeeds (R190). So there is no constructor, and no step ends in a fault (log 19; safe). -/
inductive Fault where
deriving DecidableEq, Repr

/-- Why there is no meaning for what arrived. -/
inductive Refusal where
  /-- An instruction whose meaning is not written yet; raised by no arm of `exec` in this model; safe. -/
  | notModelled (mnemonic : String)
  /-- What arrived is no transaction of the block: its operands have another number, type or length
  (R80), or it is a name the table does not have. Raised by `step` alone, before the machine sees the
  transaction; no instruction raises it; safe (log 11). -/
  | malformed (why : DecodeError)
deriving DecidableEq, Repr

/-- `rx_state` (R25); its value 3 does not exist (93 U11). -/
inductive RxState where
  /-- No start byte seen since the last candidate ended. -/
  | hunt
  /-- A start byte was seen and `rx_buf` holds the candidate so far. -/
  | collect
  /-- The candidate outgrew `CAND_MAX` and is being discarded up to its end byte. -/
  | drop
deriving DecidableEq, Repr

/-- The result registers of FCHK, written together by every check (R27). -/
structure CheckRegs where
  /-- `F_N`: total length of the operand in bytes. -/
  n : Nat
  /-- `F_VALID`: the operand is long enough to hold every fixed field. -/
  valid : Bool
  /-- `F_LEN`: the embedded length field. -/
  len : Half
  /-- `F_SRC[0]`. -/
  src0 : Byte
  /-- `F_SRC[1]`. -/
  src1 : Byte
  /-- `F_DST[0]`. -/
  dst0 : Byte
  /-- `F_DST[1]`. -/
  dst1 : Byte
  /-- `F_FN`: the function code. -/
  fn : Byte
  /-- `F_PLEN`: payload length. -/
  plen : Nat
  /-- `F_PAY`: the payload. -/
  pay : List Byte
  /-- `F_CRC`: the embedded CRC. -/
  crc : Half
  /-- `F_CALC`: the CRC recomputed over the middle section. -/
  calcCrc : Half
  /-- `F_DELIM_OK`. -/
  delimOk : Bool
  /-- `F_LEN_OK`. -/
  lenOk : Bool
  /-- `F_CRC_OK`. -/
  crcOk : Bool
  /-- `F_OK`: the verdict. -/
  ok : Bool
  /-- `F_ACK_VALID`: the operand is longer than `ACK_OFFSET`. -/
  ackValid : Bool
  /-- `F_ACK`: the acknowledgement-flag byte. -/
  ack : Byte
deriving DecidableEq, Repr

/-- The result registers after reset: zero or empty (R34). -/
def CheckRegs.reset : CheckRegs :=
  { n := 0, valid := false, len := 0x0000, src0 := 0x00, src1 := 0x00, dst0 := 0x00, dst1 := 0x00,
    fn := 0x00, plen := 0, pay := [], crc := 0x0000, calcCrc := 0x0000, delimOk := false, lenOk := false,
    crcOk := false, ok := false, ackValid := false, ack := 0x00 }

/-- The answer of PARSE (R164). -/
structure ParseAnswer where
  valid : Bool
  ok : Bool
  dst : List Byte
  src : List Byte
  fn : Byte
  len : Half
  payload : List Byte
  crc : Half
  ackValid : Bool
  ack : Byte
  n : Nat
deriving DecidableEq, Repr

/-- An answer on channel RSP (92 D1). -/
inductive Answer where
  /-- `Ok` with nothing (CRC.CLR, CRC.UPD, RX.FLUSH, SRST, CLRERR). -/
  | ok
  /-- CRC.RD: the two bytes of `crc`, high byte first (R106). -/
  | okCrc (hi lo : Byte)
  /-- ENC: the frame (R122). -/
  | okFrame (frame : List Byte)
  /-- VERIFY: the verdict (R163). -/
  | okVerdict (verdict : Bool)
  /-- PARSE: the fields (R164). -/
  | okParse (fields : ParseAnswer)
  /-- An exception: the cause code, and the offending length or operation code (R191). -/
  | err (code : Byte) (recorded : Nat)
deriving DecidableEq, Repr

/-- The state of the block. -/
structure State where
  /-- The parameters, arguments of the step function (R7, R21); no step writes them (log 2). -/
  params : Params
  /-- `crc`: the running remainder of CRCG (R23). -/
  crc : Half
  /-- `rx_state` (R25). -/
  rxState : RxState
  /-- `rx_buf`: the candidate under collection (R26). -/
  rxBuf : List Byte
  /-- The `F_` registers (R27). -/
  chk : CheckRegs
  /-- `ERRFLAGS`: bit 0 ENC_ERR, bit 1 RX_OVF, bit 2 BAD_OP, bit 3 reads 0 (R28). -/
  errFlags : BitVec 4
  /-- `E_CAUSE` (R29). -/
  eCause : Byte
  /-- `tx_out`: every byte emitted toward the transport, oldest first (R30). -/
  txOut : List Byte
  /-- `cand_out`: every completed candidate, oldest first (R31). -/
  candOut : List (List Byte)
  /-- The answers given on channel RSP, oldest first: the model's own field (log 3). -/
  rsp : List Answer
  /-- How many candidates of `cand_out` CHECKALL has taken: the model's own field (log 4). -/
  candSeen : Nat
  /-- What was issued and is not yet accepted, oldest first: the model's own field (log 1). -/
  arrivals : List Arrival
deriving DecidableEq, Repr

/-- The state right after RESET (R34, R220), with the default parameters (R7) and nothing issued. -/
def State.reset : State :=
  { params := Params.default, crc := 0x0000, rxState := .hunt, rxBuf := [], chk := CheckRegs.reset,
    errFlags := 0b0000, eCause := 0x00, txOut := [], candOut := [], rsp := [], candSeen := 0,
    arrivals := [] }

end Sys2Proof.Machine
end

