-- ==== Sys2Proof/Machine/Operands.lean ====
section
/-!
DEFINITION. How bytes are read and put together: byte order (20_memory.md R51 to R53), slices and
indexed reads of a byte sequence (00_scope.md R10, R11), and the parameter tests.
-/

namespace Sys2Proof.Machine

/-- `lo8(v) = v[7:0]` (R11). -/
def lo8 (v : Half) : Byte := v.extractLsb' 0 8

/-- `hi8(v) = v[15:8]` (R11). -/
def hi8 (v : Half) : Byte := v.extractLsb' 8 8

/-- `le16(lo, hi)`: a 16-bit value from two bytes, low byte first (R11, R51). -/
def le16 (lo hi : Byte) : Half := lo.setWidth 16 + 256 * hi.setWidth 16

/-- `be16(hi, lo)`: a 16-bit value from two bytes, high byte first (R11, R52). -/
def be16 (hi lo : Byte) : Half := 256 * hi.setWidth 16 + lo.setWidth 16

/-- `f[i]`: the byte at index `i` (R10). Every rule guards the length before it reads (R11, R165), so
what an index past the end gives is never seen. -/
def byteAt (f : List Byte) (i : Nat) : Byte := f.getD i 0x00

/-- `s[a..b)`: the half-open slice, empty when `a >= b` (R10). -/
def slice (s : List Byte) (a b : Nat) : List Byte := (s.take b).drop a

/-- `rx_state` as the 2-bit value the host sees (R25). -/
def RxState.code : RxState → BitVec 2
  | .hunt => 0
  | .collect => 1
  | .drop => 2

/-- `rx_cnt = len(rx_buf)` (R26). -/
def State.rxCnt (s : State) : Nat := s.rxBuf.length

/-- `len = CAND_MAX`: there is no room for another byte (R142). -/
def roomGone : CandMax → Nat → Bool
  | .unbounded, _ => false
  | .atMost m _, n => n == m

end Sys2Proof.Machine
end

