-- ==== Sys2Proof/Machine/CrcEngine.lean ====
section
/-!
DEFINITION. The CRC-16/CCITT-XModem algorithm (40_crc.md R100 to R103): polynomial 0x1021, initial value
0x0000, most significant bit first, no reflection, no final XOR, direct form.
-/

namespace Sys2Proof.Machine

/-- One bit step (R101). -/
def crcBit (c : Half) (d : Bool) : Half :=
  let fb := c.getLsbD 15 ^^ d
  let shifted := c <<< 1
  if fb then shifted ^^^ Config.poly else shifted

/-- One byte step: the eight bits of the byte, bit 7 first and bit 0 last (R54, R102). -/
def crcByte (c : Half) (b : Byte) : Half :=
  [7, 6, 5, 4, 3, 2, 1, 0].foldl (fun c k => crcBit c (b.getLsbD k)) c

/-- One shift of the software form of R102. -/
def crcShift (c : Half) : Half :=
  if c.getLsbD 15 then (c <<< 1) ^^^ Config.poly else c <<< 1

/-- The software form of one byte step (R102): the byte is XORed into the top half, then eight shifts. -/
def crcByteTop (c : Half) (b : Byte) : Half :=
  [(), (), (), (), (), (), (), ()].foldl (fun c _ => crcShift c) (c ^^^ (b.setWidth 16 <<< 8))

/-- The CRC of a byte sequence, first byte first (R103). -/
def crc16 (s : List Byte) : Half := s.foldl crcByte Config.crcInit

end Sys2Proof.Machine
end

