-- ==== Sys2Proof/Machine/Flags.lean ====
section
/-!
DEFINITION. The flags: the bits of `ERRFLAGS` (10_state.md R28) and the tests behind the verdict flags
of FCHK (43_checker_parser.md R161).
-/

namespace Sys2Proof.Machine

/-- Bit 0 of `ERRFLAGS`, `ENC_ERR` (R28). -/
def encErrBit : BitVec 4 := 0b0001

/-- Bit 1 of `ERRFLAGS`, `RX_OVF` (R28). -/
def rxOvfBit : BitVec 4 := 0b0010

/-- Bit 2 of `ERRFLAGS`, `BAD_OP` (R28). -/
def badOpBit : BitVec 4 := 0b0100

/-- `ERRFLAGS.ENC_ERR`. -/
def State.encErr (s : State) : Bool := s.errFlags.getLsbD 0

/-- `ERRFLAGS.RX_OVF`. -/
def State.rxOvf (s : State) : Bool := s.errFlags.getLsbD 1

/-- `ERRFLAGS.BAD_OP`. -/
def State.badOp (s : State) : Bool := s.errFlags.getLsbD 2

/-- The flag a raised cause sets: `ENC_ERR` for EncodingError, `BAD_OP` for BadOp (R196). -/
def causeFlag : Cause → BitVec 4
  | .dstLen => encErrBit
  | .srcLen => encErrBit
  | .fnLen => encErrBit
  | .payloadLen => encErrBit
  | .badOp => badOpBit

/-- `F_DELIM_OK`: the first byte is 0x68 and the last is 0x16 (R161). -/
def delimOk (f : List Byte) : Bool :=
  byteAt f 0 == Config.startMark && byteAt f (f.length - 1) == Config.endMark

/-- `F_LEN`, read from its fixed place (R161). -/
def lenField (f : List Byte) : Half := le16 (byteAt f 1) (byteAt f 2)

/-- `F_CRC`, read from its place counted from the end (R74, R161). -/
def crcField (f : List Byte) : Half := be16 (byteAt f (f.length - 3)) (byteAt f (f.length - 2))

/-- The middle section `f[1 .. n-3)`, which the CRC covers (R12, R71). -/
def middleOf (f : List Byte) : List Byte := slice f 1 (f.length - 3)

/-- `F_LEN_OK`: `F_LEN = n - 6`, a comparison of natural numbers (R161). -/
def lenOk (f : List Byte) : Bool := (lenField f).toNat == f.length - 6

/-- `F_CRC_OK`: the recomputed CRC equals the embedded one (R161). -/
def crcOk (f : List Byte) : Bool := crc16 (middleOf f) == crcField f

end Sys2Proof.Machine
end

