-- ==== Sys2Proof/Machine/Ops.lean ====
section
/-!
DEFINITION. The operations of the four units as functions from state to state, each written once; the
meanings of the instructions call them. Every one is total: no operation of the block stops it.
-/

namespace Sys2Proof.Machine

/-- `respond`: an answer on channel RSP (R11). -/
def respond (a : Answer) (s : State) : State := { s with rsp := s.rsp ++ [a] }

/-- `raise X(info)`, the block's whole trap entry (60_exceptions.md R196): the cause code and one sticky
flag are written, nothing else changes, and `Err(info)` is answered. `recorded` is the offending length,
or the operation code (R191). There is no return from it (R197): the next operation runs normally. -/
def raise (c : Cause) (recorded : Nat) (s : State) : State :=
  respond (.err c.code recorded) { s with eCause := c.code, errFlags := s.errFlags ||| causeFlag c }

/-! ### CRCG (R104 to R106) -/

/-- CRC.CLR (R104). -/
def crcClear (s : State) : State := respond .ok { s with crc := Config.crcInit }

/-- CRC.UPD b (R105). -/
def crcUpdate (b : Byte) (s : State) : State := respond .ok { s with crc := crcByte s.crc b }

/-- CRC.RD (R106): the high byte first; `crc` keeps its value. -/
def crcRead (s : State) : State := respond (.okCrc (hi8 s.crc) (lo8 s.crc)) s

/-! ### TXF (R122) -/

/-- The middle section of a frame: LEN little-endian, then source BEFORE destination (R70, R122). -/
def middleSection (dst src fn payload : List Byte) : List Byte :=
  let len : Half := BitVec.ofNat 16 (Config.hdrFixed + payload.length)
  [lo8 len, hi8 len] ++ src ++ dst ++ fn ++ payload

/-- A middle section wrapped into a frame: the start byte, the middle, its CRC big-endian, the end byte
(R71, R122). -/
def wrap (mid : List Byte) : List Byte :=
  [Config.startMark] ++ mid ++ [hi8 (crc16 mid), lo8 (crc16 mid)] ++ [Config.endMark]

/-- The frame ENC builds (R122). -/
def buildFrame (dst src fn payload : List Byte) : List Byte := wrap (middleSection dst src fn payload)

/-- The first test of R122 that fails, with the length it records (R191, R199); none when all pass. -/
def encFailure (p : Params) (dst src fn payload : List Byte) : Option (Cause × Nat) :=
  if dst.length ≠ 2 then some (.dstLen, dst.length)
  else if src.length ≠ 2 then some (.srcLen, src.length)
  else if fn.length ≠ 1 then some (.fnLen, fn.length)
  else if payload.length > p.payloadMax.val then some (.payloadLen, payload.length)
  else none

/-- ENC dst, src, fn, payload (R122). -/
def encodeFrame (dst src fn payload : List Byte) (s : State) : State :=
  match encFailure s.params dst src fn payload with
  | some (c, recorded) => raise c recorded s
  | none =>
    let frame := buildFrame dst src fn payload
    respond (.okFrame frame) { s with txOut := s.txOut ++ frame }

/-! ### RXD (R142, R147) -/

/-- RX.BYTE b (R142); no answer. -/
def rxByte (b : Byte) (s : State) : State :=
  match s.rxState with
  | .hunt =>
    if b = Config.startMark then { s with rxBuf := [Config.startMark], rxState := .collect } else s
  | .collect =>
    if roomGone s.params.candMax s.rxBuf.length then
      { s with
        rxBuf := [], errFlags := s.errFlags ||| rxOvfBit,
        rxState := if b = Config.endMark then .hunt else .drop }
    else if b = Config.endMark then
      { s with candOut := s.candOut ++ [s.rxBuf ++ [Config.endMark]], rxBuf := [], rxState := .hunt }
    else { s with rxBuf := s.rxBuf ++ [b] }
  | .drop => if b = Config.endMark then { s with rxState := .hunt } else s

/-- Received bytes, one RX.BYTE each, in order (R152). -/
def rxBytes (bs : List Byte) (s : State) : State := bs.foldl (fun s b => rxByte b s) s

/-- RX.FLUSH (R147). -/
def rxFlush (s : State) : State := respond .ok { s with rxBuf := [], rxState := .hunt }

/-! ### FCHK (R161, R163, R164) -/

/-- The acknowledgement registers: positional, valid when the operand is longer than `ACK_OFFSET`,
whatever the verdict (R161, R167). -/
def ackOf (p : Params) (f : List Byte) : Bool × Byte :=
  if f.length > p.ackOffset.index then (true, byteAt f p.ackOffset.index) else (false, 0x00)

/-- `fchk(f)` (R161). -/
def fchk (p : Params) (f : List Byte) : CheckRegs :=
  if f.length < Config.minFrame then
    { CheckRegs.reset with n := f.length, ackValid := (ackOf p f).1, ack := (ackOf p f).2 }
  else
    { n := f.length
      valid := true
      len := lenField f
      src0 := byteAt f 3
      src1 := byteAt f 4
      dst0 := byteAt f 5
      dst1 := byteAt f 6
      fn := byteAt f 7
      plen := f.length - 11
      pay := slice f 8 (f.length - 3)
      crc := crcField f
      calcCrc := crc16 (middleOf f)
      delimOk := delimOk f
      lenOk := lenOk f
      crcOk := crcOk f
      ok := delimOk f && lenOk f && crcOk f
      ackValid := (ackOf p f).1
      ack := (ackOf p f).2 }

/-- `fchk` of the state's own parameters, written to the `F_` registers (R161). -/
def check (f : List Byte) (s : State) : State := { s with chk := fchk s.params f }

/-- VERIFY f (R163): the verdict is the answer. -/
def verifyFrame (f : List Byte) (s : State) : State :=
  respond (.okVerdict (check f s).chk.ok) (check f s)

/-- What PARSE answers, from the `F_` registers (R164). -/
def parseAnswer (c : CheckRegs) : ParseAnswer :=
  { valid := c.valid, ok := c.ok, dst := [c.dst0, c.dst1], src := [c.src0, c.src1], fn := c.fn,
    len := c.len, payload := c.pay, crc := c.crc, ackValid := c.ackValid, ack := c.ack, n := c.n }

/-- PARSE f (R164). -/
def parseFrame (f : List Byte) (s : State) : State :=
  respond (.okParse (parseAnswer (check f s).chk)) (check f s)

/-! ### Control (R180 to R182) -/

/-- Every register and buffer at its reset value; the histories and the model's own fields as they are
(R34, R181). -/
def clearRegisters (s : State) : State :=
  { s with
    crc := State.reset.crc, rxState := State.reset.rxState, rxBuf := State.reset.rxBuf,
    chk := State.reset.chk, errFlags := State.reset.errFlags, eCause := State.reset.eCause }

/-- SRST (R181). -/
def softReset (s : State) : State := respond .ok (clearRegisters s)

/-- RESET (R180): the histories are emptied too, and nothing is answered. The parameters were fixed when
the block was built, and what is still to arrive is outside the block (log 13). -/
def hardReset (s : State) : State := { State.reset with params := s.params, arrivals := s.arrivals }

/-- CLRERR (R182). -/
def clearErrors (s : State) : State := respond .ok { s with errFlags := 0b0000, eCause := noCause }

/-! ### Pseudo-operations (R83) -/

/-- CRC.BLK s (R107): CRC.CLR, one CRC.UPD for each byte, CRC.RD. -/
def crcBlock (bs : List Byte) (s : State) : State :=
  crcRead (bs.foldl (fun s b => crcUpdate b s) (crcClear s))

/-- SPLIT buf (R148): RX.FLUSH, one RX.BYTE for each byte, RX.FLUSH. -/
def splitBuffer (buf : List Byte) (s : State) : State := rxFlush (rxBytes buf (rxFlush s))

/-- The candidates that are new since the last CHECKALL (log 4). -/
def State.newCandidates (s : State) : List (List Byte) := s.candOut.drop s.candSeen

/-- CHECKALL (R83): VERIFY of each new candidate, in order. -/
def checkAll (s : State) : State :=
  { s.newCandidates.foldl (fun s c => verifyFrame c s) s with candSeen := s.candOut.length }

/-! ### What the host sees (R183) -/

/-- Everything the host can see of the block: the continuously visible registers (R183), the two
histories and the answers. The content of `rx_buf` is not part of it (R26, R33). -/
structure HostView where
  crc : Half
  rxState : BitVec 2
  rxCnt : Nat
  chk : CheckRegs
  errFlags : BitVec 4
  eCause : Byte
  txOut : List Byte
  candOut : List (List Byte)
  rsp : List Answer
deriving DecidableEq, Repr

/-- The host's view of a state. -/
def State.hostView (s : State) : HostView :=
  { crc := s.crc, rxState := s.rxState.code, rxCnt := s.rxCnt, chk := s.chk, errFlags := s.errFlags,
    eCause := s.eCause, txOut := s.txOut, candOut := s.candOut, rsp := s.rsp }

end Sys2Proof.Machine
end

