-- ==== Sys2Proof/Machine/Causes.lean ====
section
/-!
DEFINITION. The meanings of the table's cause rows (60_exceptions.md R191): the operation that ends with that cause
(log 9). EncodingError is raised by ENC only, and BadOp by the decoder only (R190), so no row raises a
cause of its own accord.
-/

namespace Sys2Proof.Machine

/-- E_CAUSE.NONE: the clear after which no error is recorded (R29, R182, R191). -/
def execCauseNone (s : State) : Host.Outcome State Fault Refusal :=
  .next (clearErrors s)

/-- E_CAUSE.DST_LEN: an ENC whose destination is not 2 bytes (R191). -/
def execCauseDstLen (dst src fn payload : List Byte) (s : State) : Host.Outcome State Fault Refusal :=
  .next (encodeFrame dst src fn payload s)

/-- E_CAUSE.SRC_LEN: an ENC whose source is not 2 bytes (R191). -/
def execCauseSrcLen (dst src fn payload : List Byte) (s : State) : Host.Outcome State Fault Refusal :=
  .next (encodeFrame dst src fn payload s)

/-- E_CAUSE.FN_LEN: an ENC whose function is not 1 byte (R191). -/
def execCauseFnLen (dst src fn payload : List Byte) (s : State) : Host.Outcome State Fault Refusal :=
  .next (encodeFrame dst src fn payload s)

/-- E_CAUSE.PAYLOAD_LEN: an ENC whose payload is longer than `PAYLOAD_MAX` (R191). -/
def execCausePayloadLen (dst src fn payload : List Byte) (s : State) : Host.Outcome State Fault Refusal :=
  .next (encodeFrame dst src fn payload s)

/-- E_CAUSE.BAD_OP: an operation whose code is none of the ten (R191, R194). -/
def execCauseBadOp (op : Byte) (s : State) : Host.Outcome State Fault Refusal :=
  .next (raise .badOp op.toNat s)

end Sys2Proof.Machine
end

