-- ==== Sys2Proof/Machine/Control.lean ====
section
/-!
DEFINITION. The meanings of the control operations (44_control.md R180 to R182) and of the 246 operation codes
without a meaning, which take the exception BadOp (60_exceptions.md R194).
-/

namespace Sys2Proof.Machine

/-- SRST (R181). -/
def execSrst (s : State) : Host.Outcome State Fault Refusal :=
  .next (softReset s)

/-- CLRERR (R182). -/
def execClrErr (s : State) : Host.Outcome State Fault Refusal :=
  .next (clearErrors s)

/-- An unassigned operation code: BadOp is raised, with the code in the answer (R79, R191, R194). -/
def execUnassignedOp (op : Byte) (s : State) : Host.Outcome State Fault Refusal :=
  .next (raise .badOp op.toNat s)

/-- The reset event (R180). -/
def execReset (s : State) : Host.Outcome State Fault Refusal :=
  .next (hardReset s)

end Sys2Proof.Machine
end

