-- ==== Sys2Proof/Machine/Crcg.lean ====
section
/-!
DEFINITION. The meanings of the CRC generator's operations (40_crc.md R104 to R106). None raises anything.
-/

namespace Sys2Proof.Machine

/-- CRC.CLR: `crc <- 0x0000`, answer `Ok` (R104). -/
def execCrcClr (s : State) : Host.Outcome State Fault Refusal :=
  .next (crcClear s)

/-- CRC.UPD b: one byte step of `crc`, answer `Ok` (R105). -/
def execCrcUpd (b : Byte) (s : State) : Host.Outcome State Fault Refusal :=
  .next (crcUpdate b s)

/-- CRC.RD: answer `Ok(hi8(crc), lo8(crc))`, nothing else written (R106). -/
def execCrcRd (s : State) : Host.Outcome State Fault Refusal :=
  .next (crcRead s)

end Sys2Proof.Machine
end

