-- ==== Sys2Proof/Machine/Fchk.lean ====
section
/-!
DEFINITION. The meanings of the checker's operations (43_checker_parser.md R163, R164). None raises anything.
-/

namespace Sys2Proof.Machine

/-- VERIFY f: every `F_` register written, answer `Ok(F_OK)` (R163). -/
def execVerify (f : List Byte) (s : State) : Host.Outcome State Fault Refusal :=
  .next (verifyFrame f s)

/-- PARSE f: every `F_` register written, the fields answered (R164). -/
def execParse (f : List Byte) (s : State) : Host.Outcome State Fault Refusal :=
  .next (parseFrame f s)

end Sys2Proof.Machine
end

