-- ==== Sys2Proof/Machine/PseudoOps.lean ====
section
/-!
DEFINITION. The meanings of the pseudo-operations (30_encoding.md R83): each runs the operations it abbreviates, in
order, with nothing between them (log 5).
-/

namespace Sys2Proof.Machine

/-- CRC.BLK s (R83, R107). -/
def execCrcBlk (bs : List Byte) (s : State) : Host.Outcome State Fault Refusal :=
  .next (crcBlock bs s)

/-- SPLIT buf (R83, R148). -/
def execSplit (buf : List Byte) (s : State) : Host.Outcome State Fault Refusal :=
  .next (splitBuffer buf s)

/-- CHECKALL (R83; which candidates are new: log 4). -/
def execCheckAll (s : State) : Host.Outcome State Fault Refusal :=
  .next (checkAll s)

end Sys2Proof.Machine
end

