-- ==== Sys2Proof/Machine/Rxd.lean ====
section
/-!
DEFINITION. The meanings of the receive scanner's operations (42_rx_deframer.md R142, R147). None raises anything.
-/

namespace Sys2Proof.Machine

/-- RX.BYTE b: one step of the delimiter scan; no answer (R142). -/
def execRxByte (b : Byte) (s : State) : Host.Outcome State Fault Refusal :=
  .next (rxByte b s)

/-- RX.FLUSH: an incomplete candidate is thrown away, answer `Ok` (R147). -/
def execRxFlush (s : State) : Host.Outcome State Fault Refusal :=
  .next (rxFlush s)

end Sys2Proof.Machine
end

