-- ==== Sys2Proof/Machine/Txf.lean ====
section
/-!
DEFINITION. The meaning of the transmit framer's operation (41_tx_framer.md R122).
-/

namespace Sys2Proof.Machine

/-- ENC dst, src, fn, payload: the frame appended to `tx_out` and answered, or EncodingError raised (R122). -/
def execEnc (dst src fn payload : List Byte) (s : State) : Host.Outcome State Fault Refusal :=
  .next (encodeFrame dst src fn payload s)

end Sys2Proof.Machine
end

