-- ==== Sys2Proof/Machine/Wire.lean ====
section
/-!
DEFINITION. The meanings of the table's rows for bytes of a frame on the wire (30_encoding.md R71, R72, R76, R77):
those bytes arrive on the receive channel, one RX.BYTE each (log 6, 7, 8).
-/

namespace Sys2Proof.Machine

/-- FRAME.HEAD: the start byte, LEN low and high, SRC[0], SRC[1], DST[0], DST[1] and FN arrive (R71, R72). -/
def execFrameHead (lenLo lenHi src0 src1 dst0 dst1 fn : Byte) (s : State) : Host.Outcome State Fault Refusal :=
  .next (rxBytes [Config.startMark, lenLo, lenHi, src0, src1, dst0, dst1, fn] s)

/-- FRAME.TAIL: CRC high, CRC low and the end byte arrive (R71, R72). -/
def execFrameTail (crcHi crcLo : Byte) (s : State) : Host.Outcome State Fault Refusal :=
  .next (rxBytes [crcHi, crcLo, Config.endMark] s)

/-- START: a byte of class START arrives (R76). -/
def execStartByte (s : State) : Host.Outcome State Fault Refusal :=
  .next (rxByte Config.startMark s)

/-- END: a byte of class END arrives (R76). -/
def execEndByte (s : State) : Host.Outcome State Fault Refusal :=
  .next (rxByte Config.endMark s)

/-- DATA: a byte of class DATA arrives (R76). -/
def execDataByte (b : Byte) (s : State) : Host.Outcome State Fault Refusal :=
  .next (rxByte b s)

/-- FN_WRITE: the function byte 0x29 arrives; it is carried, not interpreted (R77). -/
def execFnWrite (s : State) : Host.Outcome State Fault Refusal :=
  .next (rxByte Config.fnWrite s)

/-- FN_READ: the function byte 0x40 arrives; it is carried, not interpreted (R77). -/
def execFnRead (s : State) : Host.Outcome State Fault Refusal :=
  .next (rxByte Config.fnRead s)

/-- ACK_A9: the acknowledgement byte 0xa9 arrives; it is carried, not interpreted (R77). -/
def execAckA9 (s : State) : Host.Outcome State Fault Refusal :=
  .next (rxByte Config.ackA9 s)

/-- ACK_C0: the acknowledgement byte 0xc0 arrives; it is carried, not interpreted (R77). -/
def execAckC0 (s : State) : Host.Outcome State Fault Refusal :=
  .next (rxByte Config.ackC0 s)

end Sys2Proof.Machine
end

