-- ==== Sys2Proof/Machine/Dispatch.lean ====
section
/-!
DEFINITION. One arm per instruction: its meaning.
-/

namespace Sys2Proof.Machine

def exec (i : Instr) (s : State) : Host.Outcome State Fault Refusal :=
  match i with
  | .crcClr => Sys2Proof.Machine.execCrcClr s
  | .crcUpd b => Sys2Proof.Machine.execCrcUpd b s
  | .crcRd => Sys2Proof.Machine.execCrcRd s
  | .enc dst src fn payload => Sys2Proof.Machine.execEnc dst src fn payload s
  | .rxByte b => Sys2Proof.Machine.execRxByte b s
  | .rxFlush => Sys2Proof.Machine.execRxFlush s
  | .verify f => Sys2Proof.Machine.execVerify f s
  | .parse f => Sys2Proof.Machine.execParse f s
  | .srst => Sys2Proof.Machine.execSrst s
  | .clrErr => Sys2Proof.Machine.execClrErr s
  | .unassignedOp op => Sys2Proof.Machine.execUnassignedOp op s
  | .reset => Sys2Proof.Machine.execReset s
  | .crcBlk bs => Sys2Proof.Machine.execCrcBlk bs s
  | .split buf => Sys2Proof.Machine.execSplit buf s
  | .checkAll => Sys2Proof.Machine.execCheckAll s
  | .frameHead l h a b c d fn => Sys2Proof.Machine.execFrameHead l h a b c d fn s
  | .frameTail hi lo => Sys2Proof.Machine.execFrameTail hi lo s
  | .startByte => Sys2Proof.Machine.execStartByte s
  | .endByte => Sys2Proof.Machine.execEndByte s
  | .dataByte b => Sys2Proof.Machine.execDataByte b s
  | .fnWrite => Sys2Proof.Machine.execFnWrite s
  | .fnRead => Sys2Proof.Machine.execFnRead s
  | .ackA9 => Sys2Proof.Machine.execAckA9 s
  | .ackC0 => Sys2Proof.Machine.execAckC0 s
  | .causeNone => Sys2Proof.Machine.execCauseNone s
  | .causeDstLen dst src fn payload => Sys2Proof.Machine.execCauseDstLen dst src fn payload s
  | .causeSrcLen dst src fn payload => Sys2Proof.Machine.execCauseSrcLen dst src fn payload s
  | .causeFnLen dst src fn payload => Sys2Proof.Machine.execCauseFnLen dst src fn payload s
  | .causePayloadLen dst src fn payload => Sys2Proof.Machine.execCausePayloadLen dst src fn payload s
  | .causeBadOp op => Sys2Proof.Machine.execCauseBadOp op s

end Sys2Proof.Machine
end

