-- ==== Sys2Proof/Machine/Step.lean ====
section
/-!
DEFINITION. One step: the oldest transaction that has arrived is accepted, decoded and run (10_state.md
R20, R22; 20_memory.md R58, R60; 60_exceptions.md R194, R198).
-/

namespace Sys2Proof.Machine

/-- One step of the block. With nothing issued the block waits (R22; log 10). -/
def step (s : State) : Host.Outcome State Fault Refusal :=
  match s.arrivals with
  | [] => .next s
  | a :: later =>
    match decode s.params a with
    | .ok i => exec i { s with arrivals := later }
    | .error why => .refused (.malformed why)

/-- A word of spec/opcode_table.json issued so that it is accepted next (log 1, log 12). -/
def State.withFetchWord (s : State) (nbits w : Nat) : State :=
  { s with arrivals := tableArrival nbits w :: s.arrivals }

end Sys2Proof.Machine
end

