-- ==== Sys2Proof/Machine/HostProgram.lean ====
section
/-!
DEFINITION. Programs of the host: sequences of operations (10_state.md R22, 30_encoding.md R82, R83), the
core operations each row of the table stands for, the unit it belongs to (20_memory.md R61), and the
host's policy at a batch boundary (92 D11).
-/

namespace Sys2Proof.Machine

/-- Instructions run one after another (R60). -/
def runInstrs : List Instr → State → Host.Outcome State Fault Refusal
  | [], s => .next s
  | i :: later, s =>
    match exec i s with
    | .next t => runInstrs later t
    | .fault why => .fault why
    | .refused why => .refused why

/-- The core operations a row stands for: itself for the ten operations, the unassigned codes and RESET;
the expansion of R83 for a pseudo-operation; the operations of log 6 to 9 for the other rows. -/
def coreOps (i : Instr) (s : State) : List Instr :=
  match i with
  | .crcClr => [i]
  | .crcUpd _ => [i]
  | .crcRd => [i]
  | .enc _ _ _ _ => [i]
  | .rxByte _ => [i]
  | .rxFlush => [i]
  | .verify _ => [i]
  | .parse _ => [i]
  | .srst => [i]
  | .clrErr => [i]
  | .unassignedOp _ => [i]
  | .reset => [i]
  | .crcBlk bs => [.crcClr] ++ bs.map .crcUpd ++ [.crcRd]
  | .split buf => [.rxFlush] ++ buf.map .rxByte ++ [.rxFlush]
  | .checkAll => s.newCandidates.map .verify
  | .frameHead l L a b c d fn => [0x68, l, L, a, b, c, d, fn].map .rxByte
  | .frameTail hi lo => [hi, lo, 0x16].map .rxByte
  | .startByte => [.rxByte 0x68]
  | .endByte => [.rxByte 0x16]
  | .dataByte b => [.rxByte b]
  | .fnWrite => [.rxByte 0x29]
  | .fnRead => [.rxByte 0x40]
  | .ackA9 => [.rxByte 0xa9]
  | .ackC0 => [.rxByte 0xc0]
  | .causeNone => [.clrErr]
  | .causeDstLen dst src fn payload => [.enc dst src fn payload]
  | .causeSrcLen dst src fn payload => [.enc dst src fn payload]
  | .causeFnLen dst src fn payload => [.enc dst src fn payload]
  | .causePayloadLen dst src fn payload => [.enc dst src fn payload]
  | .causeBadOp op => [.unassignedOp op]

/-- The units of the block, and the operation decoder (R61). -/
inductive UnitName where
  | crcg | txf | rxd | fchk | decoder
deriving DecidableEq, Repr

/-- The unit an instruction acts on, the table's column `unit`; none for the operations on all units,
and for CHECKALL, which reads what RXD owns and writes what FCHK owns. -/
def unitOf : Instr → Option UnitName
  | .crcClr => some .crcg
  | .crcUpd _ => some .crcg
  | .crcRd => some .crcg
  | .enc _ _ _ _ => some .txf
  | .rxByte _ => some .rxd
  | .rxFlush => some .rxd
  | .verify _ => some .fchk
  | .parse _ => some .fchk
  | .srst => none
  | .clrErr => none
  | .unassignedOp _ => some .decoder
  | .reset => none
  | .crcBlk _ => some .crcg
  | .split _ => some .rxd
  | .checkAll => none
  | .frameHead _ _ _ _ _ _ _ => some .rxd
  | .frameTail _ _ => some .rxd
  | .startByte => some .rxd
  | .endByte => some .rxd
  | .dataByte _ => some .rxd
  | .fnWrite => some .rxd
  | .fnRead => some .rxd
  | .ackA9 => some .rxd
  | .ackC0 => some .rxd
  | .causeNone => none
  | .causeDstLen _ _ _ _ => some .txf
  | .causeSrcLen _ _ _ _ => some .txf
  | .causeFnLen _ _ _ _ => some .txf
  | .causePayloadLen _ _ _ _ => some .txf
  | .causeBadOp _ => some .decoder

/-- What is issued when the transport hands over received batches: one RX.BYTE for each byte, and
RX.FLUSH after each batch when the host's policy `FLUSH_PER_BATCH` is true (R147, R152, R226, 92 D11;
log 16). -/
def batchProgram (flushPerBatch : Bool) (batches : List (List Byte)) : List Instr :=
  batches.flatMap (fun batch => batch.map .rxByte ++ if flushPerBatch then [.rxFlush] else [])

end Sys2Proof.Machine
end

