-- ==== Sys2Proof/Machine/Reference.lean ====
section
/-!
DEFINITION. The source's `split_frames`, a function of a whole buffer (42_rx_deframer.md R140): what the
streaming machine RXD is held against. It is written apart from RXD and shares no definition with it.
-/

namespace Sys2Proof.Machine

/-- The bytes up to and including the first 0x16, and the bytes after it; none when there is no 0x16. -/
def untilEnd : List Byte → Option (List Byte × List Byte)
  | [] => none
  | b :: rest =>
    if b = Config.endMark then some ([b], rest)
    else match untilEnd rest with
      | some (c, after) => some (b :: c, after)
      | none => none

/-- The scan of R140, left to right: the candidates, and the bytes of a candidate that was begun and not
ended (empty when there is none). The first argument bounds the number of turns of the loop. -/
def scan : Nat → List Byte → List (List Byte) × List Byte
  | 0, _ => ([], [])
  | _ + 1, [] => ([], [])
  | turns + 1, b :: rest =>
    if b = Config.startMark then
      match untilEnd rest with
      | none => ([], b :: rest)
      | some (c, after) => ((b :: c) :: (scan turns after).1, (scan turns after).2)
    else scan turns rest

/-- `split_frames(buffer)` (R140): every turn of the loop takes at least one byte. -/
def splitFrames (buf : List Byte) : List (List Byte) := (scan buf.length buf).1

/-- The unfinished candidate at the end of the buffer: its last 0x68 outside a complete candidate and
what follows, when no 0x16 follows; else empty (R146). -/
def unfinished (buf : List Byte) : List Byte := (scan buf.length buf).2

/-- A byte sequence with one bit of one byte changed (R108, R170): bit `k` of byte `i`. -/
def flipBit (f : List Byte) (i k : Nat) : List Byte := f.modify i (fun b => b ^^^ (1#8 <<< k))

end Sys2Proof.Machine
end

