-- ==== Sys2Proof/Safety.lean ====
section
/-!
DEFINITION. What counts as a safe state, in the terms the claims use: the invariant of the block, which
rules out the states no run reaches, and the absence of a recorded error.
-/

namespace Sys2Proof.Machine

/-- A candidate as RXD completes it: first byte 0x68, last byte 0x16, no other 0x16, no longer than
`CAND_MAX` (R12, R144). -/
def IsCandidate (m : CandMax) (c : List Byte) : Prop :=
  ∃ inner : List Byte, c = Config.startMark :: (inner ++ [Config.endMark]) ∧ Config.endMark ∉ inner ∧
    m.admits c.length = true

/-- What holds of every state the block can be in. -/
structure State.Inv (s : State) : Prop where
  /-- `rx_buf` is empty in HUNT and DROP (R26). -/
  empty_unless_collecting : s.rxState ≠ .collect → s.rxBuf = []
  /-- In COLLECT, `rx_buf` begins with 0x68, holds no 0x16 and is no longer than `CAND_MAX` (R26). -/
  collecting : s.rxState = .collect →
    (∃ rest, s.rxBuf = Config.startMark :: rest) ∧ Config.endMark ∉ s.rxBuf ∧
      s.params.candMax.admits s.rxBuf.length = true
  /-- DROP is unreachable when `CAND_MAX` is unbounded (R25). -/
  drop_needs_bound : s.rxState = .drop → s.params.candMax ≠ .unbounded
  /-- Every candidate in `cand_out` is one (R144). -/
  candidates : ∀ c ∈ s.candOut, IsCandidate s.params.candMax c
  /-- The result registers hold the result of one check (R27); those of reset are `fchk []`. -/
  checked : ∃ f : List Byte, s.params.candMax.admits f.length = true ∧ s.chk = fchk s.params f
  /-- Bit 3 of `ERRFLAGS` reads 0 (R28, 93 U12). -/
  bit3_zero : s.errFlags.getLsbD 3 = false
  /-- `E_CAUSE` holds a code of R191, and the flag of that cause is still set; it is 0x00 only while
  neither exception has been recorded (R28, R29, R196). -/
  cause_recorded : (s.eCause = noCause ∧ s.encErr = false ∧ s.badOp = false) ∨
    ∃ c : Cause, s.eCause = c.code ∧ s.errFlags &&& causeFlag c = causeFlag c
  /-- CHECKALL has taken no more candidates than there are (log 4). -/
  seen_le : s.candSeen ≤ s.candOut.length

/-- No error is recorded since the last clear (R28, R29, R182). -/
def State.noErrorRecorded (s : State) : Prop := s.errFlags = 0b0000 ∧ s.eCause = noCause

end Sys2Proof.Machine
end

