-- ==== Sys2Proof/Certificates/Slice0/Obligations.lean ====
section
/-!
DEFINITION. The statements about the block, from the numbered rules of spec/. `{ s with … }` in a
conclusion says the frame as well: every field that is not named is unchanged.
-/

open Sys2Proof Sys2Proof.Machine

/-! ### The CRC generator -/

/-- R104. Code 0x01 without operands is CRC.CLR; it writes 0x0000 to `crc`, answers `Ok`, and changes
nothing else. -/
def Obligations.CrcClrZeroesTheRegister : Prop :=
  (∀ p, decode p (.op 0x01 []) = .ok .crcClr) ∧
  ∀ s : State, exec .crcClr s = .next { s with crc := 0x0000, rsp := s.rsp ++ [.ok] }

/-- R105. Code 0x02 with one byte is CRC.UPD; it takes one byte step of `crc`, answers `Ok`, and changes
nothing else. -/
def Obligations.CrcUpdTakesOneByteStep : Prop :=
  (∀ p b, decode p (.op 0x02 [.byte b]) = .ok (.crcUpd b)) ∧
  ∀ (s : State) (b : Byte),
    exec (.crcUpd b) s = .next { s with crc := crcByte s.crc b, rsp := s.rsp ++ [.ok] }

/-- R106. Code 0x03 without operands is CRC.RD; it answers the high byte of `crc` and then the low byte,
and changes nothing else. -/
def Obligations.CrcRdAnswersHighByteFirst : Prop :=
  (∀ p, decode p (.op 0x03 []) = .ok .crcRd) ∧
  ∀ s : State, exec .crcRd s = .next { s with
    rsp := s.rsp ++ [.okCrc (BitVec.ofNat 8 (s.crc.toNat / 256)) (BitVec.ofNat 8 (s.crc.toNat % 256))] }

/-- R101. One bit step, in terms of numbers: the register doubled modulo 65536, XORed with 0x1021 when
the bit shifted out differs from the data bit. -/
def Obligations.CrcBitStepShiftsAndFeedsBack : Prop :=
  ∀ (c : Half) (d : Bool), (crcBit c d).toNat =
    if c.toNat / 32768 = (if d then 1 else 0) then 2 * c.toNat % 65536
    else Nat.xor (2 * c.toNat % 65536) 0x1021

/-- R102. One byte step is the eight bit steps from bit 7 to bit 0, and the software form (the byte XORed
into the top half, then eight shifts) gives the same value. -/
def Obligations.BothByteStepFormsAgree : Prop :=
  ∀ (c : Half) (b : Byte),
    crcByte c b =
      crcBit (crcBit (crcBit (crcBit (crcBit (crcBit (crcBit (crcBit c (b.getLsbD 7)) (b.getLsbD 6))
        (b.getLsbD 5)) (b.getLsbD 4)) (b.getLsbD 3)) (b.getLsbD 2)) (b.getLsbD 1)) (b.getLsbD 0) ∧
    crcByteTop c b = crcByte c b

/-- R100, the algorithm's name as a fact about numbers: the CRC of a sequence is the remainder of its
message polynomial, times X^16, modulo the generator X^16 + X^12 + X^5 + 1 over GF(2). The message's
first byte holds the highest powers, and in each byte bit 7 the highest. -/
def Obligations.CrcIsTheRemainderModuloTheGenerator : Prop :=
  ∀ s : List Byte, ∃ q : Polynomial (ZMod 2),
    (s.foldl (fun m b => m * Polynomial.X ^ 8 +
        ∑ k ∈ Finset.range 8, if b.getLsbD k then Polynomial.X ^ k else 0) 0) * Polynomial.X ^ 16 =
      q * (Polynomial.X ^ 16 + Polynomial.X ^ 12 + Polynomial.X ^ 5 + 1) +
        ∑ k ∈ Finset.range 16, if (crc16 s).getLsbD k then Polynomial.X ^ k else 0

/-- R108. The CRC is linear, and changing exactly one bit of a sequence changes its CRC. -/
def Obligations.CrcIsLinearAndSeesOneBit : Prop :=
  (∀ s t : List Byte, s.length = t.length →
    crc16 (List.zipWith (· ^^^ ·) s t) = crc16 s ^^^ crc16 t) ∧
  ∀ (s : List Byte) (i k : Nat), i < s.length → k < 8 → crc16 (flipBit s i k) ≠ crc16 s

/-- R109. A sequence followed by its CRC, high byte first, has CRC 0x0000; and for an operand of at least
11 bytes the comparison of R161 accepts exactly when the CRC of bytes 1 to n-2 is 0x0000. -/
def Obligations.ZeroResidue : Prop :=
  (∀ m : List Byte, crc16 (m ++ [hi8 (crc16 m), lo8 (crc16 m)]) = 0x0000) ∧
  ∀ (p : Params) (f : List Byte), 11 ≤ f.length →
    ((fchk p f).crcOk = true ↔ crc16 (slice f 1 (f.length - 1)) = 0x0000)

/-- R103, R229. The CRC of nothing is 0x0000; the CRC of `s ++ t` continues from the CRC of `s`; and zero
bytes put in front of a sequence do not change its CRC. -/
def Obligations.Crc16FoldsAndIgnoresLeadingZeros : Prop :=
  crc16 [] = 0x0000 ∧ (∀ s t : List Byte, crc16 (s ++ t) = t.foldl crcByte (crc16 s)) ∧
  ∀ (k : Nat) (s : List Byte), crc16 (List.replicate k 0x00 ++ s) = crc16 s

/-- R107. CRC.BLK leaves the CRC of its operand in `crc`; its last answer is that CRC, high byte first,
and every operation before it answers `Ok`. Nothing else changes. That CRC.BLK is one step, with nothing
between its operations, is log 5. -/
def Obligations.CrcBlkAnswersTheCrc : Prop :=
  ∀ (s : State) (bs : List Byte), exec (.crcBlk bs) s = .next { s with
    crc := crc16 bs
    rsp := s.rsp ++ List.replicate (bs.length + 1) .ok ++ [.okCrc (hi8 (crc16 bs)) (lo8 (crc16 bs))] }

/-- R24. Every instruction outside CRCG, ENC, VERIFY and PARSE among them, neither reads nor writes `crc`
(the two resets, which write it, apart): run with another value in `crc`, it does the same and leaves
that value. -/
def Obligations.OtherUnitsNeverTouchCrc : Prop :=
  ∀ (i : Instr) (s t : State) (c : Half), unitOf i ≠ some .crcg → i ≠ .srst → i ≠ .reset →
    exec i s = .next t → exec i { s with crc := c } = .next { t with crc := c }

/-! ### The transmit framer -/

/-- R122, the four tests passed. Code 0x10 with four byte sequences is ENC. The frame is the start byte;
LEN = 5 + N, low byte first; the source, then the destination; the function; the payload; the CRC of all
these from LEN on, high byte first; the end byte. It is appended to `tx_out` whole and answered; nothing
else changes. -/
def Obligations.EncAppendsTheFrame : Prop :=
  (∀ p dst src fn payload, decode p (.op 0x10 [.bytes dst, .bytes src, .bytes fn, .bytes payload]) =
    .ok (.enc dst src fn payload)) ∧
  ∀ (s : State) (dst src fn payload : List Byte), dst.length = 2 → src.length = 2 → fn.length = 1 →
    payload.length ≤ s.params.payloadMax.val →
    let len := 5 + payload.length
    let mid := [BitVec.ofNat 8 (len % 256), BitVec.ofNat 8 (len / 256)] ++ src ++ dst ++ fn ++ payload
    let crc := (crc16 mid).toNat
    let frame := [0x68#8] ++ mid ++ [BitVec.ofNat 8 (crc / 256), BitVec.ofNat 8 (crc % 256)] ++ [0x16#8]
    exec (.enc dst src fn payload) s =
      .next { s with txOut := s.txOut ++ frame, rsp := s.rsp ++ [.okFrame frame] }

/-- R124, R199. When a test of ENC fails, the first one that fails, in the order destination, source,
function, payload, is raised: `E_CAUSE` takes its code, `ENC_ERR` is set, `Err` is answered with the
offending length, and nothing else changes, so nothing is appended to `tx_out`. -/
def Obligations.EncRaisesTheFirstFailingTest : Prop :=
  ∀ (s : State) (dst src fn payload : List Byte),
    let raised (code : Byte) (recorded : Nat) : Host.Outcome State Fault Refusal :=
      .next { s with eCause := code, errFlags := s.errFlags ||| 0b0001#4,
                     rsp := s.rsp ++ [.err code recorded] }
    (dst.length ≠ 2 → exec (.enc dst src fn payload) s = raised 0x01 dst.length) ∧
    (dst.length = 2 → src.length ≠ 2 → exec (.enc dst src fn payload) s = raised 0x02 src.length) ∧
    (dst.length = 2 → src.length = 2 → fn.length ≠ 1 →
      exec (.enc dst src fn payload) s = raised 0x03 fn.length) ∧
    (dst.length = 2 → src.length = 2 → fn.length = 1 → s.params.payloadMax.val < payload.length →
      exec (.enc dst src fn payload) s = raised 0x04 payload.length)

/-- R71, R73. The layout of the frame a successful ENC appends, index by index. -/
def Obligations.EncFrameHasTheLayout : Prop :=
  ∀ (s : State) (a b c d e : Byte) (payload : List Byte),
    payload.length ≤ s.params.payloadMax.val →
    ∃ (t : State) (f : List Byte), exec (.enc [a, b] [c, d] [e] payload) s = .next t ∧
      t.txOut = s.txOut ++ f ∧ f.length = 11 + payload.length ∧
      f[0]? = some 0x68 ∧
      f[1]? = some (BitVec.ofNat 8 (5 + payload.length)) ∧
      f[2]? = some (BitVec.ofNat 8 ((5 + payload.length) / 256)) ∧
      f[3]? = some c ∧ f[4]? = some d ∧ f[5]? = some a ∧ f[6]? = some b ∧ f[7]? = some e ∧
      slice f 8 (8 + payload.length) = payload ∧
      f[8 + payload.length]? = some (hi8 (crc16 (slice f 1 (8 + payload.length)))) ∧
      f[9 + payload.length]? = some (lo8 (crc16 (slice f 1 (8 + payload.length)))) ∧
      f[10 + payload.length]? = some 0x16

/-- R127. Of every frame a successful ENC appends: VERIFY answers true; its length field is
2 + 2 + 1 + len(payload); it begins with 0x68 and ends with 0x16; its CRC field is the CRC of its middle
section. -/
def Obligations.EncodedFramesVerify : Prop :=
  ∀ (s : State) (dst src fn payload : List Byte), dst.length = 2 → src.length = 2 → fn.length = 1 →
    payload.length ≤ s.params.payloadMax.val →
    ∃ (t u : State) (frame : List Byte), exec (.enc dst src fn payload) s = .next t ∧
      t.txOut = s.txOut ++ frame ∧
      exec (.verify frame) t = .next u ∧ u.rsp = t.rsp ++ [.okVerdict true] ∧
      (le16 (byteAt frame 1) (byteAt frame 2)).toNat = 2 + 2 + 1 + payload.length ∧
      frame.head? = some 0x68 ∧ frame.getLast? = some 0x16 ∧
      crc16 (slice frame 1 (frame.length - 3)) =
        be16 (byteAt frame (frame.length - 3)) (byteAt frame (frame.length - 2))

/-- PARSE of the frame ENC appended answers the operands ENC was given, with the acknowledgement byte at
`ACK_OFFSET`: the second byte of the destination at 6, the function byte at 7. -/
def Obligations.ParseReadsBackWhatEncSent : Prop :=
  ∀ (s : State) (a b c d e : Byte) (payload : List Byte),
    payload.length ≤ s.params.payloadMax.val →
    ∃ (t u : State) (frame : List Byte) (crc : Half),
      exec (.enc [a, b] [c, d] [e] payload) s = .next t ∧ t.txOut = s.txOut ++ frame ∧
      exec (.parse frame) t = .next u ∧ u.rsp = t.rsp ++ [.okParse
        { valid := true, ok := true, dst := [a, b], src := [c, d], fn := e,
          len := BitVec.ofNat 16 (5 + payload.length), payload := payload, crc := crc, ackValid := true,
          ack := (match s.params.ackOffset with | .six => b | .seven => e),
          n := 11 + payload.length }]

/-- R169. VERIFY answers true for exactly the frames ENC can build, given a large enough
`PAYLOAD_MAX`. -/
def Obligations.VerifyAcceptsExactlyTheFramesOfEnc : Prop :=
  ∀ (s : State) (f : List Byte),
    (∃ t, exec (.verify f) s = .next t ∧ t.rsp = s.rsp ++ [.okVerdict true]) ↔
    ∃ rest : List Byte, 5 ≤ rest.length ∧ rest.length ≤ 65535 ∧
      let mid := [BitVec.ofNat 8 rest.length, BitVec.ofNat 8 (rest.length / 256)] ++ rest
      f = [0x68] ++ mid ++ [hi8 (crc16 mid), lo8 (crc16 mid)] ++ [0x16]

/-- 95 section 3, law 2. When a check of `f` leaves `F_OK` set, ENC of the reported destination, source,
function and payload appends `f` itself, provided `PAYLOAD_MAX` admits the payload. -/
def Obligations.AcceptedFrameIsRebuiltFromItsFields : Prop :=
  ∀ (s t : State) (f : List Byte), exec (.verify f) s = .next t → t.chk.ok = true →
    t.chk.plen ≤ s.params.payloadMax.val →
    ∃ u, exec (.enc [t.chk.dst0, t.chk.dst1] [t.chk.src0, t.chk.src1] [t.chk.fn] t.chk.pay) t = .next u ∧
      u.txOut = t.txOut ++ f

/-- R170. Of a frame that checks good, with any one bit flipped: in the middle section the CRC test
fails, and in LEN the length test too; in the CRC bytes the CRC test fails; in the start or the end byte
the delimiter test fails; and wherever it lies, VERIFY answers false. -/
def Obligations.AnySingleBitFlipIsRejected : Prop :=
  ∀ (p : Params) (f : List Byte) (i k : Nat), (fchk p f).ok = true → i < f.length → k < 8 →
    (1 ≤ i → i < f.length - 3 → (fchk p (flipBit f i k)).crcOk = false) ∧
    (1 ≤ i → i < 3 → (fchk p (flipBit f i k)).lenOk = false) ∧
    (f.length - 3 ≤ i → i < f.length - 1 → (fchk p (flipBit f i k)).crcOk = false) ∧
    (i = 0 ∨ i = f.length - 1 → (fchk p (flipBit f i k)).delimOk = false) ∧
    (fchk p (flipBit f i k)).ok = false ∧
    ∀ s : State, s.params = p → ∃ t, exec (.verify (flipBit f i k)) s = .next t ∧
      t.rsp = s.rsp ++ [.okVerdict false]

/-! ### The receive scanner -/

/-- R141, R142. The transition table of RX.BYTE, row by row; `len(rx_buf) < CAND_MAX` is said as "one
byte more is admitted". Code 0x20 with one byte is RX.BYTE. -/
def Obligations.RxByteFollowsTheTable : Prop :=
  (∀ p b, decode p (.op 0x20 [.byte b]) = .ok (.rxByte b)) ∧
  ∀ (s : State) (b : Byte),
    (s.rxState = .hunt → b = 0x68 →
      exec (.rxByte b) s = .next { s with rxBuf := [0x68], rxState := .collect }) ∧
    (s.rxState = .hunt → b ≠ 0x68 → exec (.rxByte b) s = .next s) ∧
    (s.rxState = .collect → b = 0x16 → s.params.candMax.admits (s.rxBuf.length + 1) = true →
      exec (.rxByte b) s = .next { s with
        candOut := s.candOut ++ [s.rxBuf ++ [0x16]], rxBuf := [], rxState := .hunt }) ∧
    (s.rxState = .collect → b ≠ 0x16 → s.params.candMax.admits (s.rxBuf.length + 1) = true →
      exec (.rxByte b) s = .next { s with rxBuf := s.rxBuf ++ [b] }) ∧
    (s.rxState = .collect → b = 0x16 → (∃ h, s.params.candMax = .atMost s.rxBuf.length h) →
      exec (.rxByte b) s = .next { s with
        rxBuf := [], errFlags := s.errFlags ||| 0b0010#4, rxState := .hunt }) ∧
    (s.rxState = .collect → b ≠ 0x16 → (∃ h, s.params.candMax = .atMost s.rxBuf.length h) →
      exec (.rxByte b) s = .next { s with
        rxBuf := [], errFlags := s.errFlags ||| 0b0010#4, rxState := .drop }) ∧
    (s.rxState = .drop → b = 0x16 → exec (.rxByte b) s = .next { s with rxState := .hunt }) ∧
    (s.rxState = .drop → b ≠ 0x16 → exec (.rxByte b) s = .next s)

/-- R153. The complete list of the transitions RX.BYTE takes; every other byte leaves `rx_state` as it
is. -/
def Obligations.RxStateMovesOnlyAlongTheList : Prop :=
  ∀ (s : State) (b : Byte), ∃ t, exec (.rxByte b) s = .next t ∧
    (t.rxState = s.rxState ∨
      (s.rxState = .hunt ∧ t.rxState = .collect ∧ b = 0x68) ∨
      (s.rxState = .collect ∧ t.rxState = .hunt ∧ b = 0x16) ∨
      (s.rxState = .collect ∧ t.rxState = .drop ∧ b ≠ 0x16 ∧
        ∃ h, s.params.candMax = .atMost s.rxBuf.length h) ∨
      (s.rxState = .drop ∧ t.rxState = .hunt ∧ b = 0x16)) ∧
    (s.rxState = .collect → t.rxState = .collect → t.rxBuf = s.rxBuf ++ [b])

/-- R144. In a state the block can be in, one RX.BYTE appends at most one candidate, and only on 0x16 in
COLLECT; the candidate has first byte 0x68, last byte 0x16, no other 0x16, and length from 2 to
`CAND_MAX`. -/
def Obligations.CompletedCandidateShape : Prop :=
  ∀ (s t : State) (b : Byte), s.Inv → exec (.rxByte b) s = .next t → t.candOut ≠ s.candOut →
    b = 0x16 ∧ s.rxState = .collect ∧ ∃ c inner : List Byte, t.candOut = s.candOut ++ [c] ∧
      c = [0x68] ++ inner ++ [0x16] ∧ 0x16 ∉ inner ∧ 2 ≤ c.length ∧
      s.params.candMax.admits c.length = true

/-- R146. From HUNT with an empty buffer, the bytes of any sequence fed to RX.BYTE one by one append
exactly the candidates of `split_frames` that are no longer than `CAND_MAX`, in order. Afterwards the
scanner is in HUNT exactly when no candidate is unfinished; otherwise in COLLECT with the unfinished
candidate when it holds at most `CAND_MAX` bytes, and in DROP when it holds more. -/
def Obligations.RxStreamEqualsSplitFrames : Prop :=
  ∀ (s : State) (buf : List Byte), s.rxState = .hunt → s.rxBuf = [] →
    ∃ t, runInstrs (buf.map .rxByte) s = .next t ∧
      t.candOut = s.candOut ++
        (splitFrames buf).filter (fun c => s.params.candMax.admits c.length) ∧
      (t.rxState ≠ .hunt ↔ unfinished buf ≠ []) ∧
      (t.rxState = .collect ↔
        unfinished buf ≠ [] ∧ s.params.candMax.admits (unfinished buf).length = true) ∧
      (t.rxState = .collect → t.rxBuf = unfinished buf) ∧ (t.rxState ≠ .collect → t.rxBuf = [])

/-- R149, and what R140 says of `split_frames`. The buffer is: for each candidate in order a gap without a
0x68 and then the candidate; then a gap without a 0x68; then the unfinished candidate, which begins with
0x68 and holds no 0x16, or nothing. Each candidate begins with 0x68, ends with 0x16 and has no other
0x16; concatenated in order they are a subsequence of the buffer. -/
def Obligations.CandidatesAreDisjointSlices : Prop :=
  ∀ buf : List Byte, ∃ (gaps : List (List Byte)) (last : List Byte),
    gaps.length = (splitFrames buf).length ∧
    buf = (List.zipWith (· ++ ·) gaps (splitFrames buf)).flatten ++ last ++ unfinished buf ∧
    (∀ g ∈ gaps, 0x68 ∉ g) ∧ 0x68 ∉ last ∧
    (∀ c ∈ splitFrames buf, ∃ inner, c = [0x68] ++ inner ++ [0x16] ∧ 0x16 ∉ inner) ∧
    (unfinished buf ≠ [] → (unfinished buf).head? = some 0x68 ∧ 0x16 ∉ unfinished buf) ∧
    (splitFrames buf).flatten.Sublist buf

/-- R147. Code 0x21 without operands is RX.FLUSH; it empties `rx_buf`, returns to HUNT, answers `Ok`, and
changes nothing else. -/
def Obligations.RxFlushDropsThePartialCandidate : Prop :=
  (∀ p, decode p (.op 0x21 []) = .ok .rxFlush) ∧
  ∀ s : State, exec .rxFlush s =
    .next { s with rxBuf := [], rxState := .hunt, rsp := s.rsp ++ [.ok] }

/-- R148. SPLIT appends to `cand_out` the candidates of `split_frames` that are no longer than
`CAND_MAX`, whatever state RXD was in, and leaves RXD in HUNT with an empty buffer. `RX_OVF` is set
exactly when a candidate, or the unfinished one, is longer than `CAND_MAX` (R145). The two RX.FLUSH answer
`Ok`; nothing else changes. That SPLIT is one step, with nothing between its operations, is log 5. -/
def Obligations.SplitEqualsSplitFrames : Prop :=
  ∀ (s : State) (buf : List Byte), exec (.split buf) s = .next { s with
    rxState := .hunt, rxBuf := []
    candOut := s.candOut ++ (splitFrames buf).filter (fun c => s.params.candMax.admits c.length)
    errFlags := if (unfinished buf :: splitFrames buf).all (fun c => s.params.candMax.admits c.length)
      then s.errFlags else s.errFlags ||| 0b0010#4
    rsp := s.rsp ++ [.ok, .ok] }

/-- R224. A frame that checks good and is no longer than `CAND_MAX` survives SPLIT whole if and only if
none of its bytes 1 to n-2 is 0x16. -/
def Obligations.FrameSurvivesSplitIffNoInnerEnd : Prop :=
  ∀ (s : State) (f : List Byte), (fchk s.params f).ok = true →
    s.params.candMax.admits f.length = true →
    ((∃ t, exec (.split f) s = .next t ∧ t.candOut = s.candOut ++ [f]) ↔
      0x16 ∉ slice f 1 (f.length - 1))

/-- 70 R226, 92 D11. For an unbounded `CAND_MAX`: with RX.FLUSH at every batch boundary the candidates
are those of `split_frames` of each batch; without it they are those of all the bytes joined. -/
def Obligations.BatchPolicyDecidesReassembly : Prop :=
  ∀ (s : State) (batches : List (List Byte)), s.rxState = .hunt → s.rxBuf = [] →
    s.params.candMax = .unbounded →
    (∃ t, runInstrs (batchProgram true batches) s = .next t ∧
      t.candOut = s.candOut ++ batches.flatMap splitFrames) ∧
    ∃ t, runInstrs (batchProgram false batches) s = .next t ∧
      t.candOut = s.candOut ++ splitFrames batches.flatten

/-- R33. What the host sees after a received byte other than 0x16 does not depend on the content of
`rx_buf`, only on its length. -/
def Obligations.BufferContentIsHiddenUntilTheEnd : Prop :=
  ∀ (s : State) (buf : List Byte) (b : Byte), buf.length = s.rxBuf.length → b ≠ 0x16 →
    ∃ t u, exec (.rxByte b) s = .next t ∧ exec (.rxByte b) { s with rxBuf := buf } = .next u ∧
      t.hostView = u.hostView

/-- R76. A received byte is told apart by a full 8-bit comparison. START begins a candidate in HUNT, is
data in COLLECT and ignored in DROP; END is ignored in HUNT, ends the candidate in COLLECT and the
discarding in DROP; DATA is ignored in HUNT and DROP and appended in COLLECT (with room for a byte). That
the three rows are RX.BYTE of such a byte is log 7. -/
def Obligations.ByteClassesActAsTheTableSays : Prop :=
  (∀ (p : Params) (b : Byte), decode p (.byteClass b) =
    .ok (if b = 0x68 then .startByte else if b = 0x16 then .endByte else .dataByte b)) ∧
  ∀ s : State,
    (s.rxState = .hunt →
      exec .startByte s = .next { s with rxBuf := [0x68], rxState := .collect } ∧
      exec .endByte s = .next s ∧ ∀ b, b ≠ 0x68 → exec (.dataByte b) s = .next s) ∧
    (s.rxState = .collect → s.params.candMax.admits (s.rxBuf.length + 1) = true →
      exec .startByte s = .next { s with rxBuf := s.rxBuf ++ [0x68] } ∧
      exec .endByte s = .next { s with
        candOut := s.candOut ++ [s.rxBuf ++ [0x16]], rxBuf := [], rxState := .hunt } ∧
      ∀ b, b ≠ 0x16 → exec (.dataByte b) s = .next { s with rxBuf := s.rxBuf ++ [b] }) ∧
    (s.rxState = .drop →
      exec .startByte s = .next s ∧ exec .endByte s = .next { s with rxState := .hunt } ∧
      ∀ b, b ≠ 0x16 → exec (.dataByte b) s = .next s)

/-- R77. The function codes and acknowledgement values are carried, not interpreted: on the wire each is
ignored in HUNT and DROP and appended in COLLECT (with room for a byte), like any DATA byte. That the
four rows are RX.BYTE of that byte is log 8. -/
def Obligations.FunctionAndAckBytesAreCarried : Prop :=
  ∀ (s : State) (i : Instr) (b : Byte),
    (i, b) ∈ [(Instr.fnWrite, 0x29#8), (.fnRead, 0x40#8), (.ackA9, 0xa9#8), (.ackC0, 0xc0#8)] →
    (s.rxState ≠ .collect → exec i s = .next s) ∧
    (s.rxState = .collect → s.params.candMax.admits (s.rxBuf.length + 1) = true →
      exec i s = .next { s with rxBuf := s.rxBuf ++ [b] })

/-- R71, R72. The eight bytes of a frame's beginning, none of them 0x16, arriving in HUNT open a candidate
that holds them; the last three bytes of a frame, the CRC bytes not 0x16, arriving in COLLECT with room
complete the candidate with them. That the two rows are those bytes arriving is log 6. -/
def Obligations.FrameHeadOpensAndFrameTailCloses : Prop :=
  (∀ (s : State) (l h a b c d e : Byte), s.rxState = .hunt → 0x16 ∉ [l, h, a, b, c, d, e] →
    exec (.frameHead l h a b c d e) s = .next { s with
      rxState := .collect, rxBuf := [0x68, l, h, a, b, c, d, e] }) ∧
  ∀ (s : State) (hi lo : Byte), s.rxState = .collect → hi ≠ 0x16 → lo ≠ 0x16 →
    s.params.candMax.admits (s.rxBuf.length + 3) = true →
    exec (.frameTail hi lo) s = .next { s with
      rxState := .hunt, rxBuf := [], candOut := s.candOut ++ [s.rxBuf ++ [hi, lo, 0x16]] }

/-! ### The checker and parser -/

/-- R161, R163, an operand of at least 11 bytes. Code 0x30 with a byte sequence of at most `CAND_MAX`
bytes is VERIFY. It writes every result register from its fixed place and answers the verdict; nothing
else changes, whatever the bytes are. -/
def Obligations.VerifyReadsEveryField : Prop :=
  (∀ p f, p.candMax.admits f.length = true → decode p (.op 0x30 [.bytes f]) = .ok (.verify f)) ∧
  ∀ (s : State) (f : List Byte), 11 ≤ f.length →
    ∃ c : CheckRegs,
      exec (.verify f) s = .next { s with chk := c, rsp := s.rsp ++ [.okVerdict c.ok] } ∧
      c.n = f.length ∧ c.valid = true ∧
      c.len.toNat = (byteAt f 1).toNat + 256 * (byteAt f 2).toNat ∧
      f[3]? = some c.src0 ∧ f[4]? = some c.src1 ∧ f[5]? = some c.dst0 ∧ f[6]? = some c.dst1 ∧
      f[7]? = some c.fn ∧ c.plen = f.length - 11 ∧ c.pay.length = f.length - 11 ∧
      f = f.take 8 ++ c.pay ++ f.drop (f.length - 3) ∧
      c.crc.toNat = 256 * (byteAt f (f.length - 3)).toNat + (byteAt f (f.length - 2)).toNat ∧
      c.calcCrc = crc16 (slice f 1 (f.length - 3)) ∧
      (c.delimOk = true ↔ f.head? = some 0x68 ∧ f.getLast? = some 0x16) ∧
      (c.lenOk = true ↔ c.len.toNat = f.length - 6) ∧
      (c.crcOk = true ↔ c.calcCrc = c.crc) ∧
      (c.ok = true ↔ c.delimOk = true ∧ c.lenOk = true ∧ c.crcOk = true) ∧
      c.ackValid = true ∧ f[s.params.ackOffset.index]? = some c.ack

/-- R161, R162 (a), an operand of fewer than 11 bytes: every register but `F_N`, `F_ACK_VALID` and
`F_ACK` is zero or empty, the verdict is false, and the acknowledgement byte is still reported when the
operand is longer than `ACK_OFFSET`. -/
def Obligations.VerifyRejectsShortOperands : Prop :=
  ∀ (s : State) (f : List Byte), f.length < 11 →
    ∃ (ackValid : Bool) (ack : Byte), exec (.verify f) s = .next { s with
      chk := { n := f.length, valid := false, len := 0, src0 := 0, src1 := 0, dst0 := 0, dst1 := 0,
               fn := 0, plen := 0, pay := [], crc := 0, calcCrc := 0, delimOk := false, lenOk := false,
               crcOk := false, ok := false, ackValid := ackValid, ack := ack }
      rsp := s.rsp ++ [.okVerdict false] } ∧
    (ackValid = true ↔ s.params.ackOffset.index < f.length) ∧
    (ackValid = true → f[s.params.ackOffset.index]? = some ack) ∧ (ackValid = false → ack = 0x00)

/-- R164. Code 0x31 with a byte sequence of at most `CAND_MAX` bytes is PARSE. It writes the same
registers as VERIFY and differs in its answer only, which holds the registers just written. -/
def Obligations.ParseAnswersTheRegisters : Prop :=
  (∀ p f, p.candMax.admits f.length = true → decode p (.op 0x31 [.bytes f]) = .ok (.parse f)) ∧
  ∀ (s : State) (f : List Byte), ∃ t, exec (.verify f) s = .next t ∧
    exec (.parse f) s = .next { t with rsp := s.rsp ++ [.okParse
      { valid := t.chk.valid, ok := t.chk.ok, dst := [t.chk.dst0, t.chk.dst1],
        src := [t.chk.src0, t.chk.src1], fn := t.chk.fn, len := t.chk.len, payload := t.chk.pay,
        crc := t.chk.crc, ackValid := t.chk.ackValid, ack := t.chk.ack, n := t.chk.n }] }

/-- R57, R228. A check depends on its operand and the parameters alone: issued in two states that agree in
the parameters and in nothing else, VERIFY leaves the same result registers and gives the same answer, and
so does PARSE; nothing else changes. Issued twice on one operand, each answers the same and leaves the
same registers. -/
def Obligations.ChecksDependOnTheOperandAlone : Prop :=
  ∀ (s t : State) (f : List Byte) (i : Instr), i = .verify f ∨ i = .parse f → t.params = s.params →
    ∃ (c : CheckRegs) (answer : Answer),
      exec i s = .next { s with chk := c, rsp := s.rsp ++ [answer] } ∧
      exec i t = .next { t with chk := c, rsp := t.rsp ++ [answer] } ∧
      exec i { s with chk := c, rsp := s.rsp ++ [answer] } =
        .next { s with chk := c, rsp := s.rsp ++ [answer, answer] }

/-- R83. CHECKALL verifies each candidate that is new in `cand_out`, in order: one verdict is answered for
each, and the result registers hold the last check. Which candidates are new is the model's choice
(log 4): those after the ones a CHECKALL has taken. -/
def Obligations.CheckAllVerifiesNewCandidatesInOrder : Prop :=
  ∀ s : State, exec .checkAll s = .next { s with
    chk := match (s.candOut.drop s.candSeen).getLast? with
      | none => s.chk
      | some c => fchk s.params c
    rsp := s.rsp ++ (s.candOut.drop s.candSeen).map (fun c => .okVerdict (fchk s.params c).ok)
    candSeen := s.candOut.length }

/-! ### Reset, soft reset, clearing -/

/-- R180. The reset event empties every register, buffer and history and answers nothing. The parameters
were fixed when the block was built, what is still to arrive is outside the block, and the model's own
histories begin anew (log 13). -/
def Obligations.ResetEmptiesEverything : Prop :=
  (∀ p, decode p .event = .ok .reset) ∧
  ∀ s : State, exec .reset s = .next
    { params := s.params, crc := 0x0000, rxState := .hunt, rxBuf := []
      chk := { n := 0, valid := false, len := 0, src0 := 0, src1 := 0, dst0 := 0, dst1 := 0, fn := 0,
               plen := 0, pay := [], crc := 0, calcCrc := 0, delimOk := false, lenOk := false,
               crcOk := false, ok := false, ackValid := false, ack := 0 }
      errFlags := 0b0000, eCause := 0x00, txOut := [], candOut := [], rsp := [], candSeen := 0
      arrivals := s.arrivals }

/-- R34, R220. The state after reset, register by register; no value is unspecified. -/
def Obligations.ResetValues : Prop :=
  State.reset.crc = 0x0000 ∧ State.reset.rxState.code = 0 ∧ State.reset.rxBuf = [] ∧
  State.reset.chk.n = 0 ∧ State.reset.chk.plen = 0 ∧ State.reset.chk.len = 0x0000 ∧
  State.reset.chk.crc = 0x0000 ∧ State.reset.chk.calcCrc = 0x0000 ∧ State.reset.chk.src0 = 0x00 ∧
  State.reset.chk.src1 = 0x00 ∧ State.reset.chk.dst0 = 0x00 ∧ State.reset.chk.dst1 = 0x00 ∧
  State.reset.chk.fn = 0x00 ∧ State.reset.chk.ack = 0x00 ∧ State.reset.chk.pay = [] ∧
  State.reset.chk.valid = false ∧ State.reset.chk.delimOk = false ∧ State.reset.chk.lenOk = false ∧
  State.reset.chk.crcOk = false ∧ State.reset.chk.ok = false ∧ State.reset.chk.ackValid = false ∧
  State.reset.errFlags = 0b0000 ∧ State.reset.eCause = 0x00 ∧ State.reset.txOut = [] ∧
  State.reset.candOut = []

/-- R181. Code 0x40 without operands is SRST; it puts every register and buffer to its reset value, leaves
`tx_out` and `cand_out` unchanged, and answers `Ok`. -/
def Obligations.SrstKeepsTheHistories : Prop :=
  (∀ p, decode p (.op 0x40 []) = .ok .srst) ∧
  ∀ s : State, exec .srst s = .next { s with
    crc := 0x0000, rxState := .hunt, rxBuf := [], chk := State.reset.chk, errFlags := 0b0000
    eCause := 0x00, rsp := s.rsp ++ [.ok] }

/-- R182. Code 0x41 without operands is CLRERR; it clears `ERRFLAGS` and `E_CAUSE`, answers `Ok`, and
changes nothing else. -/
def Obligations.ClrErrClearsTheErrorRegistersOnly : Prop :=
  (∀ p, decode p (.op 0x41 []) = .ok .clrErr) ∧
  ∀ s : State, exec .clrErr s =
    .next { s with errFlags := 0b0000, eCause := 0x00, rsp := s.rsp ++ [.ok] }

/-! ### Exceptions and the error registers -/

/-- R79, R194, R198. Any of the 246 other operation codes, whatever its operands, is decoded and run as
BadOp: cause 0x10, the flag `BAD_OP`, the code in the answer, and nothing else changes (but that the
transaction is no longer waiting). -/
def Obligations.UnassignedCodesRaiseBadOp : Prop :=
  ∀ (s : State) (code : Byte) (operands : List Operand) (later : List Arrival),
    code ∉ [0x01#8, 0x02, 0x03, 0x10, 0x20, 0x21, 0x30, 0x31, 0x40, 0x41] →
    s.arrivals = .op code operands :: later →
    step s = .next { s with
      arrivals := later, eCause := 0x10, errFlags := s.errFlags ||| 0b0100#4
      rsp := s.rsp ++ [.err 0x10 code.toNat] }

/-- R196 for BadOp, as an instruction: the row of the unassigned codes, and the row of cause 0x10 (the
same exception, log 9), raise it: cause, flag and answer, and nothing else. -/
def Obligations.BadOpChangesOnlyTheErrorRegisters : Prop :=
  ∀ (s : State) (op : Byte),
    let raised : Host.Outcome State Fault Refusal := .next { s with
      eCause := 0x10, errFlags := s.errFlags ||| 0b0100#4, rsp := s.rsp ++ [.err 0x10 op.toNat] }
    exec (.unassignedOp op) s = raised ∧ exec (.causeBadOp op) s = raised

/-- R191. A well-formed instruction of a cause row of EncodingError, and any instruction of the row of
cause 0x10, leaves that row's code in `E_CAUSE` and answers it with what R191 says the answer records (the
offending length, the operation code); the flag is that of R196; and nothing else changes. The row of cause
0x00 clears both error registers. That a cause row is the operation that ends with the cause is log 9. -/
def Obligations.CauseRowsEndWithTheirCode : Prop :=
  (∀ s : State, exec .causeNone s =
    .next { s with errFlags := 0b0000, eCause := 0x00, rsp := s.rsp ++ [.ok] }) ∧
  (∀ (s : State) (dst src fn payload : List Byte) (i : Instr) (code : Byte) (recorded : Nat),
    (i, code, recorded) ∈ [(Instr.causeDstLen dst src fn payload, 0x01#8, dst.length),
      (.causeSrcLen dst src fn payload, 0x02#8, src.length),
      (.causeFnLen dst src fn payload, 0x03#8, fn.length),
      (.causePayloadLen dst src fn payload, 0x04#8, payload.length)] →
    i.wellFormed s.params = true →
    exec i s = .next { s with
      eCause := code, errFlags := s.errFlags ||| 0b0001#4, rsp := s.rsp ++ [.err code recorded] }) ∧
  ∀ (s : State) (op : Byte), exec (.causeBadOp op) s = .next { s with
    eCause := 0x10, errFlags := s.errFlags ||| 0b0100#4, rsp := s.rsp ++ [.err 0x10 op.toNat] }

/-- R28. A bit of `ERRFLAGS` stays set until CLRERR, SRST or RESET (the row of cause 0x00 is a clear,
log 9) clears all four; bit 0 is set by TXF only, bit 1 by RXD only, bit 2 by the decoder only, and bit 3
never. -/
def Obligations.ErrorFlagsAreSticky : Prop :=
  ∀ (i : Instr) (s t : State), exec i s = .next t →
    (i ∈ [Instr.clrErr, .srst, .reset, .causeNone] ∧ t.errFlags = 0b0000) ∨
    (i ∉ [Instr.clrErr, .srst, .reset, .causeNone] ∧
      (∀ k, s.errFlags.getLsbD k = true → t.errFlags.getLsbD k = true) ∧
      (t.encErr = s.encErr ∨ unitOf i = some .txf) ∧ (t.rxOvf = s.rxOvf ∨ unitOf i = some .rxd) ∧
      (t.badOp = s.badOp ∨ unitOf i = some .decoder) ∧ t.errFlags.getLsbD 3 = s.errFlags.getLsbD 3)

/-- R28, last sentence but one. The flags record, they do not gate: run with any other `ERRFLAGS`, every
instruction does the same to everything but `ERRFLAGS`. -/
def Obligations.ErrorFlagsDoNotGate : Prop :=
  ∀ (i : Instr) (s t : State) (flags : BitVec 4), exec i s = .next t →
    ∃ flags', exec i { s with errFlags := flags } = .next { t with errFlags := flags' }

/-- R29. `E_CAUSE` changes only when an operation raises, to the code it raised and answered last, or is
cleared to 0x00; a successful operation does not change it. -/
def Obligations.CauseRegisterFollowsRaises : Prop :=
  ∀ (i : Instr) (s t : State), exec i s = .next t → t.eCause ≠ s.eCause →
    (i ∈ [Instr.clrErr, .srst, .reset, .causeNone] ∧ t.eCause = 0x00) ∨
    ∃ (c : Cause) (recorded : Nat), t.eCause = c.code ∧ t.rsp = s.rsp ++ [.err c.code recorded] ∧
      t.txOut = s.txOut

/-! ### Whole-machine rules -/

/-- R30, R31. `tx_out` and `cand_out` are append-only but for RESET; `tx_out` grows only by TXF, and by a
whole frame or not at all; `cand_out` grows only by RXD. -/
def Obligations.HistoriesAreAppendOnly : Prop :=
  ∀ (i : Instr) (s t : State), i ≠ .reset → exec i s = .next t →
    ∃ (sent : List Byte) (found : List (List Byte)),
      t.txOut = s.txOut ++ sent ∧ t.candOut = s.candOut ++ found ∧
      (sent ≠ [] → unitOf i = some .txf ∧ (fchk s.params sent).ok = true) ∧
      (found ≠ [] → unitOf i = some .rxd)

/-- R27. Only VERIFY and PARSE (CHECKALL is VERIFYs), SRST and RESET write the result registers. -/
def Obligations.OnlyChecksWriteTheResultRegisters : Prop :=
  ∀ (i : Instr) (s t : State), exec i s = .next t → t.chk ≠ s.chk →
    unitOf i = some .fchk ∨ i ∈ [Instr.checkAll, .srst, .reset]

/-- R61. Two instructions of different units, in either order, each give the same answers, and leave the
same state but for `E_CAUSE` and the order of those answers: after the first and the second instruction
the history of RSP (the model's field, log 3) holds the first's answers and then the second's, in the other
order the other way round. -/
def Obligations.DifferentUnitsCommute : Prop :=
  ∀ (i j : Instr) (u v : UnitName) (s : State), unitOf i = some u → unitOf j = some v → u ≠ v →
    ∃ (si sij sj sji : State) (a b : List Answer),
      exec i s = .next si ∧ exec j si = .next sij ∧ exec j s = .next sj ∧ exec i sj = .next sji ∧
      si.rsp = s.rsp ++ a ∧ sj.rsp = s.rsp ++ b ∧
      sij.rsp = s.rsp ++ a ++ b ∧ sji.rsp = s.rsp ++ b ++ a ∧
      { sij with eCause := sji.eCause, rsp := sji.rsp } = sji

/-- R190, R231. Every issued operation completes: whatever decodes, in whatever state, a step gives a next
state; and the parameters are never changed (R7). That the step takes the transaction from the queue and
leaves the rest of the queue, the reset event included, is the model's choice (log 1, log 13). -/
def Obligations.EveryIssuedOperationCompletes : Prop :=
  ∀ (s : State) (a : Arrival) (later : List Arrival) (i : Instr), s.arrivals = a :: later →
    decode s.params a = .ok i → ∃ t, step s = .next t ∧ t.params = s.params ∧ t.arrivals = later

/-- R83 and log 5 to 9. Every row of the table that is no operation of the block does exactly what the
core operations it stands for do one after another (CHECKALL also moves the model's mark of what it has
taken, log 4). -/
def Obligations.TableRowsRunTheirCoreOperations : Prop :=
  ∀ (i : Instr) (s : State), ∃ t, runInstrs (coreOps i s) s = .next t ∧
    exec i s = .next (if i = .checkAll then { t with candSeen := s.candOut.length } else t)

/-! ### Steps, decoding, the invariant -/

/-- A step accepts the oldest transaction and, when it decodes to an instruction, is that instruction's
`exec` in the state from which the transaction was taken (log 1). -/
def Obligations.StepRunsTheDecodedInstruction : Prop :=
  ∀ (s : State) (a : Arrival) (later : List Arrival) (i : Instr), s.arrivals = a :: later →
    decode s.params a = .ok i → step s = exec i { s with arrivals := later }

/-- R22. With nothing issued the block waits and nothing changes (that a step is then taken at all is the
model's choice, log 10). -/
def Obligations.BlockWaitsForTheNextOperation : Prop :=
  ∀ s : State, s.arrivals = [] → step s = .next s

/-- R80. An operand of VERIFY or PARSE longer than `CAND_MAX` is no operand of the block: it is refused
before the machine sees it; every shorter one is accepted. -/
def Obligations.OverlongOperandsAreRefused : Prop :=
  ∀ (s : State) (f : List Byte) (code : Byte) (later : List Arrival), code = 0x30 ∨ code = 0x31 →
    s.arrivals = .op code [.bytes f] :: later →
    (step s = .refused (.malformed .illFormed) ↔
      ∃ m h, s.params.candMax = .atMost m h ∧ m < f.length)

/-- R71, R72, R76 to R78, R83, R191. Words written out from the spec's codes, with operands, decode to their
instructions: the ten operations and an unassigned code, the reset event, the pseudo-operations, and every
other row of the table. -/
def Obligations.WordsDecodeToTheirInstructions : Prop :=
  let p : Params := { Params.default with payloadMax := ⟨4, by decide⟩ }
  decode p (.op 0x01 []) = .ok .crcClr ∧
  decode p (.op 0x02 [.byte 0x31]) = .ok (.crcUpd 0x31) ∧
  decode p (.op 0x03 []) = .ok .crcRd ∧
  decode p (.op 0x10 [.bytes [0x64, 0x00], .bytes [0x01, 0x00], .bytes [0x29], .bytes []]) =
    .ok (.enc [0x64, 0x00] [0x01, 0x00] [0x29] []) ∧
  decode p (.op 0x20 [.byte 0x68]) = .ok (.rxByte 0x68) ∧
  decode p (.op 0x21 []) = .ok .rxFlush ∧
  decode p (.op 0x30 [.bytes [0x68, 0x16]]) = .ok (.verify [0x68, 0x16]) ∧
  decode p (.op 0x31 [.bytes [0x68, 0x16]]) = .ok (.parse [0x68, 0x16]) ∧
  decode p (.op 0x40 []) = .ok .srst ∧
  decode p (.op 0x41 []) = .ok .clrErr ∧
  decode p (.op 0x42 []) = .ok (.unassignedOp 0x42) ∧
  decode p .event = .ok .reset ∧
  decode p (.pseudo .crcBlk [.bytes [0x05, 0x00]]) = .ok (.crcBlk [0x05, 0x00]) ∧
  decode p (.pseudo .split [.bytes [0x68, 0x16]]) = .ok (.split [0x68, 0x16]) ∧
  decode p (.pseudo .checkAll []) = .ok .checkAll ∧
  decode p (.frame [0x68, 0x05, 0x00, 0x64, 0x00, 0x01, 0x00, 0x40]) =
    .ok (.frameHead 0x05 0x00 0x64 0x00 0x01 0x00 0x40) ∧
  decode p (.frame [0x96, 0x89, 0x16]) = .ok (.frameTail 0x96 0x89) ∧
  decode p (.byteClass 0x68) = .ok .startByte ∧
  decode p (.byteClass 0x16) = .ok .endByte ∧
  decode p (.byteClass 0x05) = .ok (.dataByte 0x05) ∧
  decode p (.fnCode 0x29) = .ok .fnWrite ∧
  decode p (.fnCode 0x40) = .ok .fnRead ∧
  decode p (.ackValue 0xa9) = .ok .ackA9 ∧
  decode p (.ackValue 0xc0) = .ok .ackC0 ∧
  decode p (.cause 0x00 []) = .ok .causeNone ∧
  decode p (.cause 0x01 [.bytes [0x64], .bytes [0x01, 0x00], .bytes [0x29], .bytes []]) =
    .ok (.causeDstLen [0x64] [0x01, 0x00] [0x29] []) ∧
  decode p (.cause 0x02 [.bytes [0x64, 0x00], .bytes [0x01, 0x00, 0x00], .bytes [0x29], .bytes []]) =
    .ok (.causeSrcLen [0x64, 0x00] [0x01, 0x00, 0x00] [0x29] []) ∧
  decode p (.cause 0x03 [.bytes [0x64, 0x00], .bytes [0x01, 0x00], .bytes [0x29, 0x00], .bytes []]) =
    .ok (.causeFnLen [0x64, 0x00] [0x01, 0x00] [0x29, 0x00] []) ∧
  decode p (.cause 0x04 [.bytes [0x64, 0x00], .bytes [0x01, 0x00], .bytes [0x29], .bytes [1, 2, 3, 4, 5]]) =
    .ok (.causePayloadLen [0x64, 0x00] [0x01, 0x00] [0x29] [1, 2, 3, 4, 5]) ∧
  decode p (.cause 0x10 [.byte 0xff]) = .ok (.causeBadOp 0xff)

/-- Decoding the transaction of a well-formed instruction gives the instruction back, for every row of the
table and every value of its operands. -/
def Obligations.DecodeEncodeRoundTrip : Prop :=
  ∀ (p : Params) (i : Instr), i.wellFormed p = true → decode p (encode i) = .ok i

/-- What decodes is well formed, and each transaction has one meaning: encoding it again gives the same
transaction (an unassigned code apart, whose operands are not looked at, R198). -/
def Obligations.DecodedTransactionsAreWellFormed : Prop :=
  ∀ (p : Params) (a : Arrival) (i : Instr), decode p a = .ok i → i.wellFormed p = true ∧
    (encode i = a ∨ ∃ code operands, a = .op code operands ∧ i = .unassignedOp code ∧
      code ∉ [0x01#8, 0x02, 0x03, 0x10, 0x20, 0x21, 0x30, 0x31, 0x40, 0x41])

/-- The state after reset meets the invariant, whatever the parameters and whatever is issued. -/
def Obligations.ResetMeetsTheInvariant : Prop :=
  ∀ (p : Params) (issued : List Arrival),
    ({ State.reset with params := p, arrivals := issued } : State).Inv

/-- Every step keeps the invariant, from every state that meets it: `rx_buf` is empty outside COLLECT and
a candidate prefix in it (R26), DROP needs a bound (R25), every candidate delivered is one (R144), the
result registers hold one check (R27), bit 3 of `ERRFLAGS` reads 0 (R28), and `E_CAUSE` names a cause
whose flag is set (R29, R196). -/
def Obligations.EveryStepKeepsTheInvariant : Prop :=
  ∀ s t : State, s.Inv → step s = .next t → t.Inv
end

