-- ==== Sys2Proof/Laws/Crc.lean ====
section
/-!
SUPPORT. The CRC engine: each step is linear over GF(2), loses nothing of the register and nothing of the
byte; and the byte order helpers.
-/

namespace Sys2Proof.Machine

/-! ### Byte order -/

theorem lo8_eq_ofNat (v : Half) : lo8 v = BitVec.ofNat 8 (v.toNat % 256) := by
  apply BitVec.eq_of_toNat_eq; simp [lo8]

theorem hi8_eq_ofNat (v : Half) : hi8 v = BitVec.ofNat 8 (v.toNat / 256) := by
  apply BitVec.eq_of_toNat_eq; simp [hi8, Nat.shiftRight_eq_div_pow]

theorem le16_toNat (lo hi : Byte) : (le16 lo hi).toNat = lo.toNat + 256 * hi.toNat := by
  have := lo.isLt; have := hi.isLt
  simp [le16]
  omega

theorem be16_toNat (hi lo : Byte) : (be16 hi lo).toNat = 256 * hi.toNat + lo.toNat := by
  have := lo.isLt; have := hi.isLt
  simp [be16]
  omega

@[simp] theorem be16_hi8_lo8 (c : Half) : be16 (hi8 c) (lo8 c) = c := by
  apply BitVec.eq_of_toNat_eq
  have := c.isLt
  rw [be16_toNat]
  simp [hi8, lo8, Nat.shiftRight_eq_div_pow]
  omega

@[simp] theorem le16_lo8_hi8 (c : Half) : le16 (lo8 c) (hi8 c) = c := by
  apply BitVec.eq_of_toNat_eq
  have := c.isLt
  rw [le16_toNat]
  simp [hi8, lo8, Nat.shiftRight_eq_div_pow]
  omega

@[simp] theorem hi8_be16 (hi lo : Byte) : hi8 (be16 hi lo) = hi := by
  apply BitVec.eq_of_toNat_eq
  have := lo.isLt; have := hi.isLt
  rw [hi8_eq_ofNat, be16_toNat, BitVec.toNat_ofNat]
  omega

@[simp] theorem lo8_be16 (hi lo : Byte) : lo8 (be16 hi lo) = lo := by
  apply BitVec.eq_of_toNat_eq
  have := lo.isLt; have := hi.isLt
  rw [lo8_eq_ofNat, be16_toNat, BitVec.toNat_ofNat]
  omega

@[simp] theorem lo8_le16 (lo hi : Byte) : lo8 (le16 lo hi) = lo := by
  apply BitVec.eq_of_toNat_eq
  have := lo.isLt; have := hi.isLt
  rw [lo8_eq_ofNat, le16_toNat, BitVec.toNat_ofNat]
  omega

@[simp] theorem hi8_le16 (lo hi : Byte) : hi8 (le16 lo hi) = hi := by
  apply BitVec.eq_of_toNat_eq
  have := lo.isLt; have := hi.isLt
  rw [hi8_eq_ofNat, le16_toNat, BitVec.toNat_ofNat]
  omega

theorem be16_inj {a b a' b' : Byte} : be16 a b = be16 a' b' ↔ a = a' ∧ b = b' := by
  refine ⟨fun h => ⟨?_, ?_⟩, fun ⟨h1, h2⟩ => by rw [h1, h2]⟩
  · rw [← hi8_be16 a b, h, hi8_be16]
  · rw [← lo8_be16 a b, h, lo8_be16]

/-! ### Linearity -/

theorem half_xor_left_comm (x y z : Half) : x ^^^ (y ^^^ z) = y ^^^ (x ^^^ z) := by
  rw [← BitVec.xor_assoc, BitVec.xor_comm x y, BitVec.xor_assoc]

theorem crcBit_xor (c c' : Half) (d d' : Bool) :
    crcBit (c ^^^ c') (d ^^ d') = crcBit c d ^^^ crcBit c' d' := by
  have hs : (c ^^^ c') <<< 1 = (c <<< 1) ^^^ (c' <<< 1) := BitVec.shiftLeft_xor_distrib ..
  simp only [crcBit, BitVec.getLsbD_xor, hs]
  generalize c <<< 1 = x, c' <<< 1 = y, c.getLsbD 15 = p, c'.getLsbD 15 = q
  cases p <;> cases q <;> cases d <;> cases d' <;>
    simp [BitVec.xor_assoc, BitVec.xor_comm, half_xor_left_comm]

theorem crcByte_xor (c c' : Half) (b b' : Byte) :
    crcByte (c ^^^ c') (b ^^^ b') = crcByte c b ^^^ crcByte c' b' := by
  simp only [crcByte, List.foldl_cons, List.foldl_nil, BitVec.getLsbD_xor, crcBit_xor]

theorem crcShift_eq_crcBit (c : Half) : crcShift c = crcBit c false := by
  simp [crcShift, crcBit]

theorem crcByte_zero_zero : crcByte 0 0 = 0 := by decide

/-! ### Nothing is lost -/

theorem crcBit_false_eq_zero {c : Half} (h : crcBit c false = 0) : c = 0 := by
  have h0 := congrArg (fun x => x.getLsbD 0) h
  by_cases h15 : c.getLsbD 15
  · simp [crcBit, h15, Config.poly] at h0
  · have hc : c <<< 1 = 0 := by
      rw [crcBit] at h; simpa only [h15, Bool.xor_false, Bool.false_eq_true, if_false] using h
    apply BitVec.eq_of_getLsbD_eq
    intro i hi
    have := congrArg (fun x => x.getLsbD (i + 1)) hc
    rcases Nat.lt_or_ge i 15 with h | h
    · rw [show (0 : Half).getLsbD i = false from BitVec.getLsbD_zero]
      simp only [show (0 : Half).getLsbD (i + 1) = false from BitVec.getLsbD_zero] at this
      simpa only [BitVec.getLsbD_shiftLeft, show i + 1 < 16 by omega, decide_true, Bool.true_and,
        show ¬ i + 1 < 1 by omega, decide_false, Bool.not_false, Nat.add_sub_cancel] using this
    · have : i = 15 := by omega
      subst this; simpa using h15

theorem crcByte_zero_eq_zero {c : Half} (h : crcByte c 0 = 0) : c = 0 := by
  simp only [crcByte, List.foldl_cons, List.foldl_nil] at h
  exact crcBit_false_eq_zero (crcBit_false_eq_zero (crcBit_false_eq_zero (crcBit_false_eq_zero
    (crcBit_false_eq_zero (crcBit_false_eq_zero (crcBit_false_eq_zero (crcBit_false_eq_zero h)))))))

/-- Different registers stay different after the same byte. -/
theorem crcByte_inj_reg {c c' : Half} {b : Byte} (h : crcByte c b = crcByte c' b) : c = c' := by
  have : crcByte (c ^^^ c') (b ^^^ b) = 0 := by rw [crcByte_xor, h, BitVec.xor_self]; rfl
  rw [BitVec.xor_self] at this
  simpa using (BitVec.xor_eq_zero_iff.mp (crcByte_zero_eq_zero this))

/-- Different registers stay different after the same bytes. -/
theorem crcFold_inj_reg (t : List Byte) {c c' : Half}
    (h : t.foldl crcByte c = t.foldl crcByte c') : c = c' := by
  induction t generalizing c c' with
  | nil => exact h
  | cons b t ih => exact crcByte_inj_reg (ih h)

theorem crcByte_zero_reg_inj : ∀ b : Byte, crcByte 0 b = 0 → b = 0 := by decide +kernel

/-- Different bytes give different registers. -/
theorem crcByte_inj_byte {c : Half} {b b' : Byte} (h : crcByte c b = crcByte c b') : b = b' := by
  have : crcByte (c ^^^ c) (b ^^^ b') = 0 := by rw [crcByte_xor, h, BitVec.xor_self]; rfl
  rw [BitVec.xor_self] at this
  simpa using (BitVec.xor_eq_zero_iff.mp (crcByte_zero_reg_inj _ this))

/-! ### The register's own bytes cancel it -/

theorem be16_eq_xor (a b : Byte) : be16 a b = (a.setWidth 16 <<< 8) ^^^ b.setWidth 16 := by
  have hm : (256 : Half) * a.setWidth 16 = a.setWidth 16 <<< 8 := by
    apply BitVec.eq_of_toNat_eq
    simp [Nat.shiftLeft_eq, Nat.mul_comm]
  have ha : (a.setWidth 16 <<< 8 : Half) &&& b.setWidth 16 = 0#16 := by
    apply BitVec.eq_of_getLsbD_eq
    intro i hi
    rcases Nat.lt_or_ge i 8 with h | h
    · simp [h]
    · simp [BitVec.getLsbD_of_ge b i h]
  rw [be16, hm, BitVec.add_eq_or_of_and_eq_zero _ _ ha]
  apply BitVec.eq_of_getLsbD_eq
  intro i hi
  have := congrArg (fun x => x.getLsbD i) ha
  simp only [BitVec.getLsbD_and, BitVec.getLsbD_zero] at this
  rw [BitVec.getLsbD_or, BitVec.getLsbD_xor]
  revert this
  cases (a.setWidth 16 <<< 8 : Half).getLsbD i <;> cases (b.setWidth 16 : Half).getLsbD i <;> simp

theorem crcByte_own_top : ∀ a : Byte, crcByte (a.setWidth 16 <<< 8) a = 0 := by decide +kernel

theorem crcByte_moves_low : ∀ b : Byte, crcByte (b.setWidth 16) 0 = b.setWidth 16 <<< 8 := by
  decide +kernel

/-- A register fed with its own two bytes, high byte first, becomes zero. -/
theorem crc_own_bytes (a b : Byte) : crcByte (crcByte (be16 a b) a) b = 0 := by
  have : crcByte (be16 a b) a = b.setWidth 16 <<< 8 := by
    have := crcByte_xor (a.setWidth 16 <<< 8) (b.setWidth 16) a 0
    rw [crcByte_own_top, crcByte_moves_low] at this
    rw [be16_eq_xor]; simpa using this
  rw [this, crcByte_own_top]

end Sys2Proof.Machine
end

