-- ==== Sys2Proof/Laws/Decode.lean ====
section
/-!
SUPPORT. The operation codes and cause codes: each code found is the code of what it names, and every other
operation code names nothing.
-/

namespace Sys2Proof

theorem opName?_eq_none : ∀ {code : Byte}, code ∉ assignedOps → opName? code = none := by
  decide +kernel

theorem opName?_code (o : OpName) : opName? o.code = some o := by cases o <;> rfl

theorem code_of_opName? {code : Byte} {o : OpName} (h : opName? code = some o) : code = o.code := by
  have := List.find?_some h
  exact (beq_iff_eq.mp this).symm

theorem cause?_code (c : Cause) : cause? c.code = some c := by cases c <;> rfl

theorem code_of_cause? {code : Byte} {c : Cause} (h : cause? code = some c) : code = c.code := by
  have := List.find?_some h
  exact (beq_iff_eq.mp this).symm

/-- What decodes is well formed (R80). -/
theorem wellFormed_of_decode {p : Params} {a : Arrival} {i : Instr} (h : decode p a = .ok i) :
    i.wellFormed p = true := by
  unfold decode at h
  split at h
  · split at h
    · cases h; assumption
    · cases h
  · cases h

end Sys2Proof
end

