-- ==== Sys2Proof/Laws/State.lean ====
section
/-!
SUPPORT. One lemma per field of State for each shared update (`respond`, `raise`, `check`,
`clearRegisters`, `hardReset`), so that no later proof unfolds a record update.
-/

namespace Sys2Proof.Machine

variable (a : Answer) (c : Cause) (n : Nat) (f : List Byte) (s : State)

/-! ### respond -/

@[simp] theorem respond_params : (respond a s).params = s.params := rfl
@[simp] theorem respond_crc : (respond a s).crc = s.crc := rfl
@[simp] theorem respond_rxState : (respond a s).rxState = s.rxState := rfl
@[simp] theorem respond_rxBuf : (respond a s).rxBuf = s.rxBuf := rfl
@[simp] theorem respond_chk : (respond a s).chk = s.chk := rfl
@[simp] theorem respond_errFlags : (respond a s).errFlags = s.errFlags := rfl
@[simp] theorem respond_eCause : (respond a s).eCause = s.eCause := rfl
@[simp] theorem respond_txOut : (respond a s).txOut = s.txOut := rfl
@[simp] theorem respond_candOut : (respond a s).candOut = s.candOut := rfl
@[simp] theorem respond_rsp : (respond a s).rsp = s.rsp ++ [a] := rfl
@[simp] theorem respond_candSeen : (respond a s).candSeen = s.candSeen := rfl
@[simp] theorem respond_arrivals : (respond a s).arrivals = s.arrivals := rfl

/-! ### raise -/

@[simp] theorem raise_params : (raise c n s).params = s.params := rfl
@[simp] theorem raise_crc : (raise c n s).crc = s.crc := rfl
@[simp] theorem raise_rxState : (raise c n s).rxState = s.rxState := rfl
@[simp] theorem raise_rxBuf : (raise c n s).rxBuf = s.rxBuf := rfl
@[simp] theorem raise_chk : (raise c n s).chk = s.chk := rfl
@[simp] theorem raise_errFlags : (raise c n s).errFlags = s.errFlags ||| causeFlag c := rfl
@[simp] theorem raise_eCause : (raise c n s).eCause = c.code := rfl
@[simp] theorem raise_txOut : (raise c n s).txOut = s.txOut := rfl
@[simp] theorem raise_candOut : (raise c n s).candOut = s.candOut := rfl
@[simp] theorem raise_rsp : (raise c n s).rsp = s.rsp ++ [.err c.code n] := rfl
@[simp] theorem raise_candSeen : (raise c n s).candSeen = s.candSeen := rfl
@[simp] theorem raise_arrivals : (raise c n s).arrivals = s.arrivals := rfl

/-! ### check -/

@[simp] theorem check_params : (check f s).params = s.params := rfl
@[simp] theorem check_crc : (check f s).crc = s.crc := rfl
@[simp] theorem check_rxState : (check f s).rxState = s.rxState := rfl
@[simp] theorem check_rxBuf : (check f s).rxBuf = s.rxBuf := rfl
@[simp] theorem check_chk : (check f s).chk = fchk s.params f := rfl
@[simp] theorem check_errFlags : (check f s).errFlags = s.errFlags := rfl
@[simp] theorem check_eCause : (check f s).eCause = s.eCause := rfl
@[simp] theorem check_txOut : (check f s).txOut = s.txOut := rfl
@[simp] theorem check_candOut : (check f s).candOut = s.candOut := rfl
@[simp] theorem check_rsp : (check f s).rsp = s.rsp := rfl
@[simp] theorem check_candSeen : (check f s).candSeen = s.candSeen := rfl
@[simp] theorem check_arrivals : (check f s).arrivals = s.arrivals := rfl

/-! ### clearRegisters -/

@[simp] theorem clearRegisters_params : (clearRegisters s).params = s.params := rfl
@[simp] theorem clearRegisters_crc : (clearRegisters s).crc = 0x0000 := rfl
@[simp] theorem clearRegisters_rxState : (clearRegisters s).rxState = .hunt := rfl
@[simp] theorem clearRegisters_rxBuf : (clearRegisters s).rxBuf = [] := rfl
@[simp] theorem clearRegisters_chk : (clearRegisters s).chk = CheckRegs.reset := rfl
@[simp] theorem clearRegisters_errFlags : (clearRegisters s).errFlags = 0b0000 := rfl
@[simp] theorem clearRegisters_eCause : (clearRegisters s).eCause = 0x00 := rfl
@[simp] theorem clearRegisters_txOut : (clearRegisters s).txOut = s.txOut := rfl
@[simp] theorem clearRegisters_candOut : (clearRegisters s).candOut = s.candOut := rfl
@[simp] theorem clearRegisters_rsp : (clearRegisters s).rsp = s.rsp := rfl
@[simp] theorem clearRegisters_candSeen : (clearRegisters s).candSeen = s.candSeen := rfl
@[simp] theorem clearRegisters_arrivals : (clearRegisters s).arrivals = s.arrivals := rfl

/-! ### hardReset -/

@[simp] theorem hardReset_params : (hardReset s).params = s.params := rfl
@[simp] theorem hardReset_crc : (hardReset s).crc = 0x0000 := rfl
@[simp] theorem hardReset_rxState : (hardReset s).rxState = .hunt := rfl
@[simp] theorem hardReset_rxBuf : (hardReset s).rxBuf = [] := rfl
@[simp] theorem hardReset_chk : (hardReset s).chk = CheckRegs.reset := rfl
@[simp] theorem hardReset_errFlags : (hardReset s).errFlags = 0b0000 := rfl
@[simp] theorem hardReset_eCause : (hardReset s).eCause = 0x00 := rfl
@[simp] theorem hardReset_txOut : (hardReset s).txOut = [] := rfl
@[simp] theorem hardReset_candOut : (hardReset s).candOut = [] := rfl
@[simp] theorem hardReset_rsp : (hardReset s).rsp = [] := rfl
@[simp] theorem hardReset_candSeen : (hardReset s).candSeen = 0 := rfl
@[simp] theorem hardReset_arrivals : (hardReset s).arrivals = s.arrivals := rfl

end Sys2Proof.Machine
end

