-- ==== Sys2Proof/Laws/Exec.lean ====
section
/-!
SUPPORT. What each arm of `exec` answers: always a next state, the shared operation applied to the state.
Later proofs cite these and never unfold `exec`.
-/

namespace Sys2Proof.Machine

variable (s : State)

@[simp] theorem exec_crcClr :
    exec (.crcClr) s = .next (crcClear s) := rfl

@[simp] theorem exec_crcUpd (b : Byte) :
    exec (.crcUpd b) s = .next (crcUpdate b s) := rfl

@[simp] theorem exec_crcRd :
    exec (.crcRd) s = .next (crcRead s) := rfl

@[simp] theorem exec_enc (dst src fn payload : List Byte) :
    exec (.enc dst src fn payload) s = .next (encodeFrame dst src fn payload s) := rfl

@[simp] theorem exec_rxByte (b : Byte) :
    exec (.rxByte b) s = .next (rxByte b s) := rfl

@[simp] theorem exec_rxFlush :
    exec (.rxFlush) s = .next (rxFlush s) := rfl

@[simp] theorem exec_verify (f : List Byte) :
    exec (.verify f) s = .next (verifyFrame f s) := rfl

@[simp] theorem exec_parse (f : List Byte) :
    exec (.parse f) s = .next (parseFrame f s) := rfl

@[simp] theorem exec_srst :
    exec (.srst) s = .next (softReset s) := rfl

@[simp] theorem exec_clrErr :
    exec (.clrErr) s = .next (clearErrors s) := rfl

@[simp] theorem exec_unassignedOp (op : Byte) :
    exec (.unassignedOp op) s = .next (raise .badOp op.toNat s) := rfl

@[simp] theorem exec_reset :
    exec (.reset) s = .next (hardReset s) := rfl

@[simp] theorem exec_crcBlk (bs : List Byte) :
    exec (.crcBlk bs) s = .next (crcBlock bs s) := rfl

@[simp] theorem exec_split (buf : List Byte) :
    exec (.split buf) s = .next (splitBuffer buf s) := rfl

@[simp] theorem exec_checkAll :
    exec (.checkAll) s = .next (checkAll s) := rfl

@[simp] theorem exec_frameHead (lenLo lenHi src0 src1 dst0 dst1 fn : Byte) :
    exec (.frameHead lenLo lenHi src0 src1 dst0 dst1 fn) s = .next (rxBytes [Config.startMark, lenLo, lenHi, src0, src1, dst0, dst1, fn] s) := rfl

@[simp] theorem exec_frameTail (crcHi crcLo : Byte) :
    exec (.frameTail crcHi crcLo) s = .next (rxBytes [crcHi, crcLo, Config.endMark] s) := rfl

@[simp] theorem exec_startByte :
    exec (.startByte) s = .next (rxByte Config.startMark s) := rfl

@[simp] theorem exec_endByte :
    exec (.endByte) s = .next (rxByte Config.endMark s) := rfl

@[simp] theorem exec_dataByte (b : Byte) :
    exec (.dataByte b) s = .next (rxByte b s) := rfl

@[simp] theorem exec_fnWrite :
    exec (.fnWrite) s = .next (rxByte Config.fnWrite s) := rfl

@[simp] theorem exec_fnRead :
    exec (.fnRead) s = .next (rxByte Config.fnRead s) := rfl

@[simp] theorem exec_ackA9 :
    exec (.ackA9) s = .next (rxByte Config.ackA9 s) := rfl

@[simp] theorem exec_ackC0 :
    exec (.ackC0) s = .next (rxByte Config.ackC0 s) := rfl

@[simp] theorem exec_causeNone :
    exec (.causeNone) s = .next (clearErrors s) := rfl

@[simp] theorem exec_causeDstLen (dst src fn payload : List Byte) :
    exec (.causeDstLen dst src fn payload) s = .next (encodeFrame dst src fn payload s) := rfl

@[simp] theorem exec_causeSrcLen (dst src fn payload : List Byte) :
    exec (.causeSrcLen dst src fn payload) s = .next (encodeFrame dst src fn payload s) := rfl

@[simp] theorem exec_causeFnLen (dst src fn payload : List Byte) :
    exec (.causeFnLen dst src fn payload) s = .next (encodeFrame dst src fn payload s) := rfl

@[simp] theorem exec_causePayloadLen (dst src fn payload : List Byte) :
    exec (.causePayloadLen dst src fn payload) s = .next (encodeFrame dst src fn payload s) := rfl

@[simp] theorem exec_causeBadOp (op : Byte) :
    exec (.causeBadOp op) s = .next (raise .badOp op.toNat s) := rfl

/-- `exec` as a function from state to state: every instruction completes. -/
theorem exec_completes (i : Instr) : ∃ t, exec i s = .next t := by
  cases i <;> exact ⟨_, rfl⟩

@[simp] theorem runInstrs_nil : runInstrs [] s = .next s := rfl

theorem runInstrs_cons_of_exec (i : Instr) (later : List Instr) {s t : State}
    (h : exec i s = .next t) : runInstrs (i :: later) s = runInstrs later t := by
  simp [runInstrs, h]

theorem runInstrs_append {is js : List Instr} {s t : State} (h : runInstrs is s = .next t) :
    runInstrs (is ++ js) s = runInstrs js t := by
  induction is generalizing s with
  | nil => cases h; rfl
  | cons i is ih =>
    obtain ⟨u, hu⟩ := exec_completes s i
    rw [List.cons_append, runInstrs_cons_of_exec _ _ hu]
    exact ih (by rwa [runInstrs_cons_of_exec _ _ hu] at h)

/-- A stream of received bytes as a program is the same bytes as one operation. -/
theorem runInstrs_rxByte (bs : List Byte) : runInstrs (bs.map .rxByte) s = .next (rxBytes bs s) := by
  induction bs generalizing s with
  | nil => rfl
  | cons b bs ih =>
    rw [List.map_cons, runInstrs_cons_of_exec _ _ (exec_rxByte s b)]
    exact ih (rxByte b s)

/-- Everything a step can do when it answers a next state: wait, or run a decoded instruction. -/
theorem step_cases {s t : State} (h : step s = .next t) :
    (s.arrivals = [] ∧ t = s) ∨
    ∃ a later i, s.arrivals = a :: later ∧ decode s.params a = .ok i ∧
      exec i { s with arrivals := later } = .next t := by
  unfold step at h
  split at h
  · rename_i ha; cases h; exact .inl ⟨ha, rfl⟩
  · rename_i a later ha
    split at h
    · rename_i i hd; exact .inr ⟨a, later, i, ha, hd, h⟩
    · cases h

end Sys2Proof.Machine
end

