-- ==== Sys2Proof/Laws/Frame.lean ====
section
/-!
SUPPORT. Frames: an operand of at least 11 bytes taken apart into its fields, what `fchk` reads from it,
and what ENC builds. Later proofs take a frame apart once and never compute with indices.
-/

namespace Sys2Proof.Machine

/-- A byte sequence with the fields of R71 at their places: the mark, LEN, SRC, DST, FN, the payload, the
CRC bytes, the mark. The marks and the two-byte fields hold any bytes. -/
def fieldsOf (m l h s0 s1 d0 d1 fn : Byte) (pay : List Byte) (a b e : Byte) : List Byte :=
  m :: l :: h :: s0 :: s1 :: d0 :: d1 :: fn :: (pay ++ [a, b, e])

/-- Every operand of at least 11 bytes has that form. -/
theorem exists_fieldsOf {f : List Byte} (h : 11 ≤ f.length) :
    ∃ m l h s0 s1 d0 d1 fn pay a b e, f = fieldsOf m l h s0 s1 d0 d1 fn pay a b e := by
  match f, h with
  | m :: l :: hi :: s0 :: s1 :: d0 :: d1 :: fn :: rest, h =>
    simp only [List.length_cons] at h
    have hr : rest = rest.take (rest.length - 3) ++ rest.drop (rest.length - 3) :=
      (List.take_append_drop _ _).symm
    have hl : (rest.drop (rest.length - 3)).length = 3 := by rw [List.length_drop]; omega
    obtain ⟨a, b, e, he⟩ := List.length_eq_three.mp hl
    exact ⟨m, l, hi, s0, s1, d0, d1, fn, rest.take (rest.length - 3), a, b, e, by
      rw [fieldsOf, ← he, ← hr]⟩

section
variable (m l h s0 s1 d0 d1 fn : Byte) (pay : List Byte) (a b e : Byte)

@[simp] theorem fieldsOf_length :
    (fieldsOf m l h s0 s1 d0 d1 fn pay a b e).length = pay.length + 11 := by
  simp [fieldsOf]

@[simp] theorem byteAt_fieldsOf_first : byteAt (fieldsOf m l h s0 s1 d0 d1 fn pay a b e) 0 = m := rfl
@[simp] theorem byteAt_fieldsOf_lenLo : byteAt (fieldsOf m l h s0 s1 d0 d1 fn pay a b e) 1 = l := rfl
@[simp] theorem byteAt_fieldsOf_lenHi : byteAt (fieldsOf m l h s0 s1 d0 d1 fn pay a b e) 2 = h := rfl
@[simp] theorem byteAt_fieldsOf_src0 : byteAt (fieldsOf m l h s0 s1 d0 d1 fn pay a b e) 3 = s0 := rfl
@[simp] theorem byteAt_fieldsOf_src1 : byteAt (fieldsOf m l h s0 s1 d0 d1 fn pay a b e) 4 = s1 := rfl
@[simp] theorem byteAt_fieldsOf_dst0 : byteAt (fieldsOf m l h s0 s1 d0 d1 fn pay a b e) 5 = d0 := rfl
@[simp] theorem byteAt_fieldsOf_dst1 : byteAt (fieldsOf m l h s0 s1 d0 d1 fn pay a b e) 6 = d1 := rfl
@[simp] theorem byteAt_fieldsOf_fn : byteAt (fieldsOf m l h s0 s1 d0 d1 fn pay a b e) 7 = fn := rfl

@[simp] theorem byteAt_fieldsOf_crcHi :
    byteAt (fieldsOf m l h s0 s1 d0 d1 fn pay a b e) (pay.length + 8) = a := by
  simp [byteAt, fieldsOf]

@[simp] theorem byteAt_fieldsOf_crcLo :
    byteAt (fieldsOf m l h s0 s1 d0 d1 fn pay a b e) (pay.length + 9) = b := by
  simp [byteAt, fieldsOf]

@[simp] theorem byteAt_fieldsOf_last :
    byteAt (fieldsOf m l h s0 s1 d0 d1 fn pay a b e) (pay.length + 10) = e := by
  simp [byteAt, fieldsOf]

@[simp] theorem fieldsOf_head? : (fieldsOf m l h s0 s1 d0 d1 fn pay a b e).head? = some m := rfl

@[simp] theorem fieldsOf_getLast? : (fieldsOf m l h s0 s1 d0 d1 fn pay a b e).getLast? = some e := by
  rw [show fieldsOf m l h s0 s1 d0 d1 fn pay a b e =
    (m :: l :: h :: s0 :: s1 :: d0 :: d1 :: fn :: (pay ++ [a, b])) ++ [e] by simp [fieldsOf]]
  exact List.getLast?_concat

@[simp] theorem slice_fieldsOf_payload :
    slice (fieldsOf m l h s0 s1 d0 d1 fn pay a b e) 8 (pay.length + 8) = pay := by
  simp [slice, fieldsOf]

@[simp] theorem middleOf_fieldsOf :
    middleOf (fieldsOf m l h s0 s1 d0 d1 fn pay a b e) = l :: h :: s0 :: s1 :: d0 :: d1 :: fn :: pay := by
  simp [middleOf, slice, fieldsOf]

theorem slice_fieldsOf_inner :
    slice (fieldsOf m l h s0 s1 d0 d1 fn pay a b e) 1 (pay.length + 10) =
      (l :: h :: s0 :: s1 :: d0 :: d1 :: fn :: pay) ++ [a, b] := by
  simp [slice, fieldsOf, List.take_append]

/-- What `fchk` writes for an operand of at least 11 bytes (R161). -/
theorem fchk_fieldsOf (p : Params) :
    fchk p (fieldsOf m l h s0 s1 d0 d1 fn pay a b e) =
      { n := pay.length + 11, valid := true, len := le16 l h, src0 := s0, src1 := s1, dst0 := d0,
        dst1 := d1, fn := fn, plen := pay.length, pay := pay, crc := be16 a b,
        calcCrc := crc16 (l :: h :: s0 :: s1 :: d0 :: d1 :: fn :: pay),
        delimOk := m == Config.startMark && e == Config.endMark,
        lenOk := (le16 l h).toNat == pay.length + 5,
        crcOk := crc16 (l :: h :: s0 :: s1 :: d0 :: d1 :: fn :: pay) == be16 a b,
        ok := (m == Config.startMark && e == Config.endMark) && ((le16 l h).toNat == pay.length + 5) &&
          (crc16 (l :: h :: s0 :: s1 :: d0 :: d1 :: fn :: pay) == be16 a b),
        ackValid := true, ack := match p.ackOffset with | .six => d1 | .seven => fn } := by
  have hn : ¬ pay.length + 11 < Config.minFrame := by simp [Config.minFrame]
  have hl : pay.length + 11 > p.ackOffset.index := by cases p.ackOffset <;> simp [AckOffset.index]
  simp only [fchk, fieldsOf_length, hn, if_false, ackOf, hl, if_true, delimOk, lenOk, crcOk, lenField, crcField,
    middleOf_fieldsOf, byteAt_fieldsOf_first, byteAt_fieldsOf_lenLo, byteAt_fieldsOf_lenHi,
    byteAt_fieldsOf_src0, byteAt_fieldsOf_src1, byteAt_fieldsOf_dst0, byteAt_fieldsOf_dst1,
    byteAt_fieldsOf_fn, Nat.add_sub_cancel, show pay.length + 11 - 3 = pay.length + 8 from rfl,
    show pay.length + 11 - 2 = pay.length + 9 from rfl, show pay.length + 11 - 1 = pay.length + 10 from rfl,
    show pay.length + 11 - 6 = pay.length + 5 from rfl, slice_fieldsOf_payload, byteAt_fieldsOf_crcHi,
    byteAt_fieldsOf_crcLo, byteAt_fieldsOf_last]
  cases p.ackOffset <;> rfl

end

/-- What `fchk` writes for a shorter operand (R161). -/
theorem fchk_short (p : Params) {f : List Byte} (h : f.length < 11) :
    fchk p f =
      { CheckRegs.reset with n := f.length, ackValid := (ackOf p f).1, ack := (ackOf p f).2 } := by
  exact if_pos (show f.length < Config.minFrame from h)

/-- The check of no bytes leaves the reset values. -/
@[simp] theorem fchk_nil (p : Params) : fchk p [] = CheckRegs.reset := by
  rw [fchk_short p (by simp)]
  cases h : p.ackOffset <;> simp [ackOf, h, AckOffset.index, CheckRegs.reset]

theorem fchk_ok_length {p : Params} {f : List Byte} (h : (fchk p f).ok = true) : 11 ≤ f.length := by
  by_contra hn
  rw [fchk_short p (by omega)] at h
  exact absurd h (by simp [CheckRegs.reset])

/-! ### ENC -/

/-- The tests of ENC pass. -/
theorem encFailure_eq_none {p : Params} {dst src fn payload : List Byte} (h1 : dst.length = 2)
    (h2 : src.length = 2) (h3 : fn.length = 1) (h4 : payload.length ≤ p.payloadMax.val) :
    encFailure p dst src fn payload = none := by
  simp [encFailure, h1, h2, h3, Nat.not_lt.mpr h4]

/-- Everything ENC can do: raise one of its causes, or append its frame. -/
theorem encodeFrame_cases (dst src fn payload : List Byte) (s : State) :
    (∃ c n, c ≠ .badOp ∧ encodeFrame dst src fn payload s = raise c n s) ∨
    (dst.length = 2 ∧ src.length = 2 ∧ fn.length = 1 ∧ payload.length ≤ s.params.payloadMax.val ∧
      encodeFrame dst src fn payload s = respond (.okFrame (buildFrame dst src fn payload))
        { s with txOut := s.txOut ++ buildFrame dst src fn payload }) := by
  simp only [encodeFrame, encFailure]
  split_ifs with h1 h2 h3 h4
  · exact .inl ⟨_, _, by simp, rfl⟩
  · exact .inl ⟨_, _, by simp, rfl⟩
  · exact .inl ⟨_, _, by simp, rfl⟩
  · exact .inl ⟨_, _, by simp, rfl⟩
  · exact .inr ⟨by omega, by omega, by omega, by omega, rfl⟩

/-- The frame of well-formed operands, field by field. -/
theorem buildFrame_eq_fieldsOf (x0 x1 y0 y1 z : Byte) (pay : List Byte) :
    let len : Half := BitVec.ofNat 16 (5 + pay.length)
    let c := crc16 (lo8 len :: hi8 len :: y0 :: y1 :: x0 :: x1 :: z :: pay)
    buildFrame [x0, x1] [y0, y1] [z] pay =
      fieldsOf Config.startMark (lo8 len) (hi8 len) y0 y1 x0 x1 z pay (hi8 c) (lo8 c) Config.endMark := by
  simp [buildFrame, wrap, middleSection, fieldsOf, Config.hdrFixed]

end Sys2Proof.Machine
end

