-- ==== Sys2Proof/Laws/Rx.lean ====
section
/-!
SUPPORT. The receive scanner: everything one RX.BYTE can do, what it leaves alone, and what it does with
the bytes up to the next end byte.
-/

namespace Sys2Proof.Machine

/-! ### The parameter `CAND_MAX` -/

@[simp] theorem admits_unbounded (n : Nat) : CandMax.unbounded.admits n = true := rfl

@[simp] theorem admits_atMost {m n : Nat} {h : 11 ≤ m ∧ m ≤ 65541} :
    (CandMax.atMost m h).admits n = decide (n ≤ m) := rfl

/-- For a length `CAND_MAX` admits, there is room for another byte or there is not. -/
theorem roomGone_eq_not_admits (m : CandMax) {n : Nat} (h : m.admits n = true) :
    roomGone m n = !m.admits (n + 1) := by
  cases m with
  | unbounded => rfl
  | atMost m hm =>
    simp only [admits_atMost, decide_eq_true_eq] at h
    simp only [roomGone, admits_atMost, beq_eq_decide, ← decide_not, decide_eq_decide]
    omega

theorem roomGone_of_admits_succ {m : CandMax} {n : Nat} (h : m.admits (n + 1) = true) :
    roomGone m n = false := by
  cases m with
  | unbounded => rfl
  | atMost m hm =>
    simp only [admits_atMost, decide_eq_true_eq] at h
    simp only [roomGone, beq_eq_false_iff_ne]
    omega

theorem roomGone_iff (m : CandMax) (n : Nat) : roomGone m n = true ↔ ∃ h, m = .atMost n h := by
  cases m with
  | unbounded => simp [roomGone]
  | atMost k hk =>
    simp only [roomGone, beq_iff_eq, CandMax.atMost.injEq]
    exact ⟨fun h => ⟨h ▸ hk, h.symm⟩, fun ⟨_, h⟩ => h.symm⟩

theorem admits_mono {m : CandMax} {a b : Nat} (h : a ≤ b) (hb : m.admits b = true) :
    m.admits a = true := by
  cases m with
  | unbounded => rfl
  | atMost k hk => simp only [admits_atMost, decide_eq_true_eq] at hb ⊢; omega

/-- `CAND_MAX` is at least 11. -/
theorem admits_of_le_eleven (m : CandMax) {n : Nat} (h : n ≤ 11) : m.admits n = true := by
  cases m with
  | unbounded => rfl
  | atMost k hk => simp only [admits_atMost, decide_eq_true_eq]; omega

/-! ### One byte -/

theorem startMark_ne_endMark : Config.startMark ≠ Config.endMark := by decide

section
variable {s : State}

theorem rxByte_hunt_start (h : s.rxState = .hunt) :
    rxByte Config.startMark s = { s with rxBuf := [Config.startMark], rxState := .collect } := by
  simp [rxByte, h]

theorem rxByte_hunt_other (h : s.rxState = .hunt) {b : Byte} (hb : b ≠ Config.startMark) :
    rxByte b s = s := by
  simp [rxByte, h, hb]

theorem rxByte_collect_end (h : s.rxState = .collect)
    (hr : roomGone s.params.candMax s.rxBuf.length = false) :
    rxByte Config.endMark s =
      { s with candOut := s.candOut ++ [s.rxBuf ++ [Config.endMark]], rxBuf := [], rxState := .hunt } := by
  simp [rxByte, h, hr]

theorem rxByte_collect_other (h : s.rxState = .collect)
    (hr : roomGone s.params.candMax s.rxBuf.length = false) {b : Byte} (hb : b ≠ Config.endMark) :
    rxByte b s = { s with rxBuf := s.rxBuf ++ [b] } := by
  simp [rxByte, h, hr, hb]

theorem rxByte_full_end (h : s.rxState = .collect)
    (hr : roomGone s.params.candMax s.rxBuf.length = true) :
    rxByte Config.endMark s =
      { s with rxBuf := [], errFlags := s.errFlags ||| rxOvfBit, rxState := .hunt } := by
  simp [rxByte, h, hr]

theorem rxByte_full_other (h : s.rxState = .collect)
    (hr : roomGone s.params.candMax s.rxBuf.length = true) {b : Byte} (hb : b ≠ Config.endMark) :
    rxByte b s = { s with rxBuf := [], errFlags := s.errFlags ||| rxOvfBit, rxState := .drop } := by
  simp [rxByte, h, hr, hb]

theorem rxByte_drop_end (h : s.rxState = .drop) :
    rxByte Config.endMark s = { s with rxState := .hunt } := by
  simp [rxByte, h]

theorem rxByte_drop_other (h : s.rxState = .drop) {b : Byte} (hb : b ≠ Config.endMark) :
    rxByte b s = s := by
  simp [rxByte, h, hb]

end

/-- Everything one RX.BYTE writes: RXD's own state and the flag `RX_OVF`. -/
theorem rxByte_frame (b : Byte) (s : State) : ∃ st buf found flags,
    rxByte b s = { s with rxState := st, rxBuf := buf, candOut := s.candOut ++ found, errFlags := flags } ∧
      (flags = s.errFlags ∨ flags = s.errFlags ||| rxOvfBit) := by
  simp only [rxByte]
  split
  · split
    · exact ⟨.collect, [Config.startMark], [], s.errFlags, by simp, .inl rfl⟩
    · exact ⟨s.rxState, s.rxBuf, [], s.errFlags, by simp, .inl rfl⟩
  · split
    · exact ⟨_, [], [], _, by simp; rfl, .inr rfl⟩
    · split
      · exact ⟨.hunt, [], [s.rxBuf ++ [Config.endMark]], s.errFlags, by simp, .inl rfl⟩
      · exact ⟨s.rxState, s.rxBuf ++ [b], [], s.errFlags, by simp, .inl rfl⟩
  · split
    · exact ⟨.hunt, s.rxBuf, [], s.errFlags, by simp, .inl rfl⟩
    · exact ⟨s.rxState, s.rxBuf, [], s.errFlags, by simp, .inl rfl⟩

/-! ### Many bytes -/

@[simp] theorem rxBytes_nil (s : State) : rxBytes [] s = s := rfl

@[simp] theorem rxBytes_cons (b : Byte) (bs : List Byte) (s : State) :
    rxBytes (b :: bs) s = rxBytes bs (rxByte b s) := rfl

theorem rxBytes_append (bs cs : List Byte) (s : State) :
    rxBytes (bs ++ cs) s = rxBytes cs (rxBytes bs s) := by
  simp [rxBytes, List.foldl_append]

/-- What one RX.BYTE keeps, received bytes keep. -/
theorem rxBytes_keeps {P : State → Prop} (hb : ∀ b s, P s → P (rxByte b s)) (bs : List Byte) :
    ∀ s, P s → P (rxBytes bs s) := by
  induction bs with
  | nil => exact fun _ h => h
  | cons b bs ih => exact fun s h => ih _ (hb b s h)

theorem rxOvfBit_idem (flags : BitVec 4) : flags ||| rxOvfBit ||| rxOvfBit = flags ||| rxOvfBit := by
  rw [BitVec.or_assoc, BitVec.or_self]

/-- Received bytes write RXD's own state and the flag `RX_OVF` only. -/
theorem rxBytes_frame (bs : List Byte) (s : State) : ∃ st buf found flags,
    rxBytes bs s = { s with rxState := st, rxBuf := buf, candOut := s.candOut ++ found, errFlags := flags } ∧
      (flags = s.errFlags ∨ flags = s.errFlags ||| rxOvfBit) := by
  induction bs generalizing s with
  | nil => exact ⟨s.rxState, s.rxBuf, [], s.errFlags, by simp, .inl rfl⟩
  | cons b bs ih =>
    obtain ⟨st, buf, found, flags, he, hf⟩ := rxByte_frame b s
    obtain ⟨st', buf', found', flags', he', hf'⟩ := ih (rxByte b s)
    refine ⟨st', buf', found ++ found', flags', ?_, ?_⟩
    · rw [rxBytes_cons, he', he]; simp
    · rw [he] at hf'
      rcases hf with rfl | rfl <;> rcases hf' with rfl | rfl <;> simp [rxOvfBit_idem]

/-! ### Up to the next end byte -/

/-- A candidate ends in COLLECT: delivered when it fits, dropped when it does not. `c` is what arrives of
it, its end byte included. -/
def finishCandidate (c : List Byte) (s : State) : State :=
  if s.params.candMax.admits (s.rxBuf.length + c.length) then
    { s with candOut := s.candOut ++ [s.rxBuf ++ c], rxBuf := [], rxState := .hunt }
  else { s with errFlags := s.errFlags ||| rxOvfBit, rxBuf := [], rxState := .hunt }

theorem untilEnd_cons_of_ne {b : Byte} {rest : List Byte} (hb : b ≠ Config.endMark) :
    untilEnd (b :: rest) = (untilEnd rest).map (fun x => (b :: x.1, x.2)) := by
  rw [untilEnd, if_neg hb]
  cases untilEnd rest <;> rfl

theorem untilEnd_length {rest c after : List Byte} (h : untilEnd rest = some (c, after)) :
    rest = c ++ after ∧ (∃ inner, c = inner ++ [Config.endMark] ∧ Config.endMark ∉ inner) := by
  induction rest generalizing c with
  | nil => simp [untilEnd] at h
  | cons b rest ih =>
    by_cases hb : b = Config.endMark
    · simp only [untilEnd, hb, if_true, Option.some.injEq, Prod.mk.injEq] at h
      obtain ⟨rfl, rfl⟩ := h
      exact ⟨by simp [hb], [], by simp⟩
    · rw [untilEnd_cons_of_ne hb] at h
      cases hu : untilEnd rest with
      | none => simp [hu] at h
      | some x =>
        obtain ⟨c', a'⟩ := x
        simp only [hu, Option.map_some, Option.some.injEq, Prod.mk.injEq] at h
        obtain ⟨rfl, rfl⟩ := h
        obtain ⟨h1, inner, h2, h3⟩ := ih hu
        exact ⟨by simp [h1], b :: inner, by simp [h2], by simp [h3, Ne.symm hb]⟩

theorem untilEnd_none_iff {rest : List Byte} : untilEnd rest = none ↔ Config.endMark ∉ rest := by
  induction rest with
  | nil => simp [untilEnd]
  | cons b rest ih =>
    by_cases hb : b = Config.endMark
    · simp [untilEnd, hb]
    · simp [untilEnd_cons_of_ne hb, ih, Ne.symm hb]

theorem rxBytes_drop_some {rest c after : List Byte} (hu : untilEnd rest = some (c, after))
    {s : State} (h : s.rxState = .drop) :
    rxBytes rest s = rxBytes after { s with rxState := .hunt } := by
  induction rest generalizing c with
  | nil => simp [untilEnd] at hu
  | cons b rest ih =>
    by_cases hb : b = Config.endMark
    · simp only [untilEnd, hb, if_true, Option.some.injEq, Prod.mk.injEq] at hu
      rw [rxBytes_cons, hb, rxByte_drop_end h, hu.2]
    · rw [untilEnd_cons_of_ne hb] at hu
      cases hr : untilEnd rest with
      | none => simp [hr] at hu
      | some x =>
        simp only [hr, Option.map_some, Option.some.injEq, Prod.mk.injEq] at hu
        rw [rxBytes_cons, rxByte_drop_other h hb]
        exact ih (by rw [hr, ← hu.2])

theorem rxBytes_drop_none {rest : List Byte} (hu : Config.endMark ∉ rest)
    {s : State} (h : s.rxState = .drop) : rxBytes rest s = s := by
  induction rest with
  | nil => rfl
  | cons b rest ih =>
    rw [List.mem_cons, not_or] at hu
    rw [rxBytes_cons, rxByte_drop_other h (Ne.symm hu.1), ih hu.2]

/-- The rest of a candidate arrives in COLLECT, and the scan goes on in HUNT. -/
theorem rxBytes_collect_some {rest c after : List Byte} (hu : untilEnd rest = some (c, after))
    {s : State} (h : s.rxState = .collect) (hs : s.params.candMax.admits s.rxBuf.length = true) :
    rxBytes rest s = rxBytes after (finishCandidate c s) := by
  induction rest generalizing c s with
  | nil => simp [untilEnd] at hu
  | cons b rest ih =>
    have hr := roomGone_eq_not_admits _ hs
    rw [rxBytes_cons]
    by_cases hb : b = Config.endMark
    · simp only [untilEnd, hb, if_true, Option.some.injEq, Prod.mk.injEq] at hu
      obtain ⟨rfl, rfl⟩ := hu
      rw [hb]
      cases ha : s.params.candMax.admits (s.rxBuf.length + 1) <;> rw [ha] at hr
      · rw [rxByte_full_end h hr]; simp [finishCandidate, ha]
      · rw [rxByte_collect_end h hr]; simp [finishCandidate, ha]
    · rw [untilEnd_cons_of_ne hb] at hu
      cases hu' : untilEnd rest with
      | none => simp [hu'] at hu
      | some x =>
        obtain ⟨c', a'⟩ := x
        simp only [hu', Option.map_some, Option.some.injEq, Prod.mk.injEq] at hu
        obtain ⟨rfl, rfl⟩ := hu
        cases ha : s.params.candMax.admits (s.rxBuf.length + 1) <;> rw [ha] at hr
        · have hno : s.params.candMax.admits (s.rxBuf.length + (c'.length + 1)) = false := by
            rw [← Bool.not_eq_true]; intro hc
            rw [admits_mono (by omega) hc] at ha; exact absurd ha (by simp)
          rw [rxByte_full_other h hr hb, rxBytes_drop_some hu' rfl]
          simp [finishCandidate, hno]
        · rw [rxByte_collect_other h hr hb, ih (s := { s with rxBuf := s.rxBuf ++ [b] }) hu' h (by simpa using ha)]
          simp [finishCandidate, Nat.add_assoc, Nat.add_comm 1]

/-- A candidate that no end byte ends arrives in COLLECT. -/
theorem rxBytes_collect_none {rest : List Byte} (hu : Config.endMark ∉ rest)
    {s : State} (h : s.rxState = .collect) (hs : s.params.candMax.admits s.rxBuf.length = true) :
    rxBytes rest s =
      if s.params.candMax.admits (s.rxBuf.length + rest.length) then { s with rxBuf := s.rxBuf ++ rest }
      else { s with errFlags := s.errFlags ||| rxOvfBit, rxBuf := [], rxState := .drop } := by
  induction rest generalizing s with
  | nil => simp [hs]
  | cons b rest ih =>
    rw [List.mem_cons, not_or] at hu
    have hb := Ne.symm hu.1
    have hr := roomGone_eq_not_admits _ hs
    rw [rxBytes_cons]
    cases ha : s.params.candMax.admits (s.rxBuf.length + 1) <;> rw [ha] at hr
    · have hno : s.params.candMax.admits (s.rxBuf.length + (rest.length + 1)) = false := by
        rw [← Bool.not_eq_true]; intro hc
        rw [admits_mono (by omega) hc] at ha; exact absurd ha (by simp)
      rw [rxByte_full_other h hr hb, rxBytes_drop_none hu.2 rfl]
      simp [hno]
    · rw [rxByte_collect_other h hr hb, ih (s := { s with rxBuf := s.rxBuf ++ [b] }) hu.2 h (by simpa using ha)]
      simp [Nat.add_assoc, Nat.add_comm 1]

end Sys2Proof.Machine
end

