-- ==== Sys2Proof/Laws/Units.lean ====
section
/-!
SUPPORT. What each unit's operations can do, said once: the loops behind the pseudo-operations, SPLIT, and
`exec` by unit. Whole-machine proofs case on `exec_cases` and never unfold a meaning.
-/

namespace Sys2Proof.Machine

/-- CRC.UPD for each byte of a sequence. -/
theorem foldl_crcUpdate (bs : List Byte) (s : State) :
    bs.foldl (fun s b => crcUpdate b s) s =
      { s with crc := bs.foldl crcByte s.crc, rsp := s.rsp ++ List.replicate bs.length .ok } := by
  induction bs generalizing s with
  | nil => simp
  | cons b bs ih => rw [List.foldl_cons, ih]; simp [crcUpdate, respond, List.replicate_succ]

/-- VERIFY for each sequence of a list. -/
theorem foldl_verifyFrame (cs : List (List Byte)) (s : State) :
    cs.foldl (fun s c => verifyFrame c s) s = { s with
      chk := match cs.getLast? with | none => s.chk | some c => fchk s.params c
      rsp := s.rsp ++ cs.map (fun c => .okVerdict (fchk s.params c).ok) } := by
  induction cs generalizing s with
  | nil => simp
  | cons c cs ih =>
    rw [List.foldl_cons, ih]
    cases hl : cs.getLast? with
    | none =>
      obtain rfl : cs = [] := by simpa using hl
      simp [verifyFrame, respond, check]
    | some x =>
      rw [List.getLast?_cons, hl]
      simp [verifyFrame, respond, check]

/-- SPLIT writes RXD's own state, the flag `RX_OVF` and two answers only. -/
theorem splitBuffer_frame (bs : List Byte) (s : State) : ∃ found flags,
    splitBuffer bs s = { s with
      rxState := .hunt, rxBuf := [], candOut := s.candOut ++ found, errFlags := flags
      rsp := s.rsp ++ [.ok, .ok] } ∧
      (flags = s.errFlags ∨ flags = s.errFlags ||| rxOvfBit) := by
  obtain ⟨st, buf, found, flags, h, h'⟩ := rxBytes_frame bs (rxFlush s)
  rw [splitBuffer, h]
  exact ⟨found, flags, by simp [rxFlush, respond], h'⟩

/-- Everything an instruction can do, by what it acts on. -/
theorem exec_cases {i : Instr} {s t : State} (h : exec i s = .next t) :
    (unitOf i = some .rxd ∧ ∃ bs, t = rxBytes bs s) ∨
    (unitOf i = some .rxd ∧ t = rxFlush s) ∨
    (unitOf i = some .rxd ∧ ∃ bs, t = splitBuffer bs s) ∨
    (unitOf i = some .txf ∧ ∃ dst src fn payload, t = encodeFrame dst src fn payload s) ∨
    (unitOf i = some .decoder ∧ ∃ op : Byte, t = raise .badOp op.toNat s) ∨
    (unitOf i = some .crcg ∧ ∃ c answers, t = { s with crc := c, rsp := s.rsp ++ answers }) ∨
    (unitOf i = some .fchk ∧ ∃ f answer, (i = .verify f ∨ i = .parse f) ∧
      t = respond answer (check f s)) ∨
    (i = .checkAll ∧ t = checkAll s) ∨
    ((i = .clrErr ∨ i = .causeNone) ∧ t = clearErrors s) ∨
    (i = .srst ∧ t = softReset s) ∨
    (i = .reset ∧ t = hardReset s) := by
  have one : ∀ b, rxByte b s = rxBytes [b] s := fun _ => rfl
  cases i <;> simp only [exec_crcClr, exec_crcUpd, exec_crcRd, exec_crcBlk, exec_srst, exec_reset,
    exec_enc, exec_rxByte, exec_rxFlush, exec_verify, exec_parse, exec_clrErr, exec_unassignedOp,
    exec_split, exec_checkAll, exec_frameHead, exec_frameTail, exec_startByte, exec_endByte,
    exec_dataByte, exec_fnWrite, exec_fnRead, exec_ackA9, exec_ackC0, exec_causeNone,
    exec_causeDstLen, exec_causeSrcLen, exec_causeFnLen, exec_causePayloadLen, exec_causeBadOp,
    Host.Outcome.next.injEq] at h <;> subst h <;>
    simp only [unitOf, true_and, reduceCtorEq, false_and, false_or, or_false, true_or, or_true,
      Option.some.injEq]
  case crcBlk bs => exact ⟨crc16 bs, _, by
    rw [crcBlock, foldl_crcUpdate]
    simp only [crcClear, crcRead, respond, List.append_assoc]
    rfl⟩
  case crcClr => exact ⟨_, _, rfl⟩
  case crcUpd => exact ⟨_, _, rfl⟩
  case crcRd => exact ⟨s.crc, _, rfl⟩
  case verify => exact ⟨_, _, rfl, rfl⟩
  case parse => exact ⟨_, _, rfl, rfl⟩
  all_goals first
    | exact ⟨_, _, _, _, rfl⟩ | exact ⟨_, rfl⟩ | exact .inl ⟨_, rfl⟩ | exact .inl ⟨_, one _⟩
    | exact .inr (.inl rfl) | exact .inr (.inr ⟨_, rfl⟩)

end Sys2Proof.Machine
end

