-- ==== Sys2Proof/Tests/Slice0.lean ====
section
/-!
SUPPORT. The model's own tests: the WellFormed smoke, decoding words written out from the spec's codes, one
step of each instruction against the spec's vectors (95_test_vectors.md), and a witness for the hypotheses
of every statement.
-/

namespace Sys2Proof.Tests

open Sys2Proof.Machine

-- one theorem at a time: many at once ask for more threads than a memory limit may allow
set_option Elab.async false

/-! ### Helpers -/

/-- A bounded configuration: `CAND_MAX` 11, `PAYLOAD_MAX` 4, `ACK_OFFSET` 6. -/
def small : Params := ⟨⟨4, by decide⟩, .atMost 11 (by decide), .six⟩

/-- A scanner in COLLECT with these bytes. -/
def collecting (buf : List Byte) : State := { State.reset with rxState := .collect, rxBuf := buf }

/-- A scanner in DROP, with the bounded configuration. -/
def dropping : State := { State.reset with params := small, rxState := .drop, errFlags := 0b0010 }

/-- A bounded scanner in COLLECT with a full buffer of 11 bytes. -/
def full : State := { collecting (0x68 :: List.replicate 10 0x00) with params := small }

/-- The state of the table of 95 section 2.5, first row. -/
def used : State :=
  { State.reset with
    crc := 0x2672, rxState := .collect, rxBuf := [0x68, 0x05], errFlags := 0b0001, eCause := 0x01
    txOut := List.replicate 11 0x00, candOut := [[0x68, 0x16]]
    chk := { CheckRegs.reset with ok := true } }

/-- The instruction completes and its next state passes the test. -/
def leaves (i : Instr) (s : State) (test : State → Bool) : Bool :=
  match exec i s with
  | .next t => test t
  | .fault _ => false
  | .refused _ => false

/-- The 11-byte frame of 95 section 2.2, row 3. -/
def frame11 : List Byte := [0x68, 0x05, 0x00, 0x64, 0x00, 0x01, 0x00, 0x40, 0x96, 0x89, 0x16]

/-- The 15-byte frame of 41_tx_framer.md R128. -/
def frame15 : List Byte :=
  [0x68, 0x09, 0x00, 0x01, 0x00, 0x64, 0x00, 0x29, 0x01, 0x1e, 0x01, 0x01, 0x4e, 0x36, 0x16]

/-- The 10-byte candidate RXD cuts out of a frame with an inner 0x16 (95 section 2.4). -/
def cut10 : List Byte := [0x68, 0x05, 0x00, 0x01, 0x00, 0x64, 0x00, 0x29, 0x21, 0x16]

/-! ### The well-formedness check refuses what it must (R76, R79, R80, R191) -/

theorem test_wf_verify_too_long :
    (Instr.verify (List.replicate 12 0x00)).wellFormed small = false := by decide
theorem test_wf_verify_longest :
    (Instr.verify (List.replicate 11 0x00)).wellFormed small = true := by decide
theorem test_wf_parse_too_long :
    (Instr.parse (List.replicate 12 0x00)).wellFormed small = false := by decide
theorem test_wf_unassigned_is_assigned : ∀ op ∈ assignedOps,
    (Instr.unassignedOp op).wellFormed small = false ∧ (Instr.causeBadOp op).wellFormed small = false := by
  decide
theorem test_wf_data_is_a_mark :
    (Instr.dataByte 0x68).wellFormed small = false ∧ (Instr.dataByte 0x16).wellFormed small = false := by
  decide
theorem test_wf_cause_conditions :
    (Instr.causeDstLen [1, 2] [3, 4] [5] []).wellFormed small = false ∧
    (Instr.causeSrcLen [1, 2] [3, 4] [5] []).wellFormed small = false ∧
    (Instr.causeFnLen [1, 2] [3, 4] [5] []).wellFormed small = false ∧
    (Instr.causePayloadLen [1, 2] [3, 4] [5] [1, 2, 3, 4]).wellFormed small = false ∧
    (Instr.causeSrcLen [1] [3] [5] []).wellFormed small = false := by decide

/-! ### Words written out from the codes of R71, R76, R77, R78, R191 -/

theorem test_decode_operations : ∀ p : Params,
    decode p (.op 0b00000001 []) = .ok .crcClr ∧
    decode p (.op 0b00000010 [.byte 0x31]) = .ok (.crcUpd 0x31) ∧
    decode p (.op 0b00000011 []) = .ok .crcRd ∧
    decode p (.op 0b00010000 [.bytes [0x64, 0], .bytes [1, 0], .bytes [0x29], .bytes [9]]) =
      .ok (.enc [0x64, 0] [1, 0] [0x29] [9]) ∧
    decode p (.op 0b00100000 [.byte 0x68]) = .ok (.rxByte 0x68) ∧
    decode p (.op 0b00100001 []) = .ok .rxFlush ∧
    decode p (.op 0b01000000 []) = .ok .srst ∧
    decode p (.op 0b01000001 []) = .ok .clrErr := by
  intro p; exact ⟨rfl, rfl, rfl, rfl, rfl, rfl, rfl, rfl⟩
theorem test_decode_checks :
    decode small (.op 0b00110000 [.bytes frame11]) = .ok (.verify frame11) ∧
    decode small (.op 0b00110001 [.bytes frame11]) = .ok (.parse frame11) ∧
    decode small (.op 0b00110001 [.bytes frame15]) = .error .illFormed := by decide
/-- The codes of 95 section 2.5, and the code is looked at before the operands (R198). -/
theorem test_decode_unassigned : ∀ op ∈ [0x00#8, 0x04, 0x11, 0x22, 0x32, 0x42, 0xff],
    decode small (.op op []) = .ok (.unassignedOp op) ∧
    decode small (.op op [.byte 7, .byte 7]) = .ok (.unassignedOp op) := by decide
theorem test_decode_event_and_pseudo :
    decode small .event = .ok .reset ∧
    decode small (.pseudo .crcBlk [.bytes [1]]) = .ok (.crcBlk [1]) ∧
    decode small (.pseudo .split [.bytes [1]]) = .ok (.split [1]) ∧
    decode small (.pseudo .checkAll []) = .ok .checkAll := by decide
/-- `01101000 llllllll LLLLLLLL ssssssss SSSSSSSS dddddddd DDDDDDDD ffffffff` and
`cccccccc CCCCCCCC 00010110` (R72). -/
theorem test_decode_frame_rows :
    decode small (.frame [0b01101000, 1, 2, 3, 4, 5, 6, 7]) = .ok (.frameHead 1 2 3 4 5 6 7) ∧
    decode small (.frame [8, 9, 0b00010110]) = .ok (.frameTail 8 9) ∧
    decode small (.frame [0x16, 9, 8]) = .error .frameShape := by decide
theorem test_decode_byte_rows :
    decode small (.byteClass 0b01101000) = .ok .startByte ∧
    decode small (.byteClass 0b00010110) = .ok .endByte ∧
    decode small (.byteClass 0xff) = .ok (.dataByte 0xff) ∧
    decode small (.fnCode 0b00101001) = .ok .fnWrite ∧
    decode small (.fnCode 0b01000000) = .ok .fnRead ∧
    decode small (.ackValue 0b10101001) = .ok .ackA9 ∧
    decode small (.ackValue 0b11000000) = .ok .ackC0 := by decide
theorem test_decode_cause_rows :
    decode small (.cause 0b00000000 []) = .ok .causeNone ∧
    decode small (.cause 0b00000001 [.bytes [1], .bytes [], .bytes [], .bytes []]) =
      .ok (.causeDstLen [1] [] [] []) ∧
    decode small (.cause 0b00000010 [.bytes [1, 2], .bytes [], .bytes [], .bytes []]) =
      .ok (.causeSrcLen [1, 2] [] [] []) ∧
    decode small (.cause 0b00000011 [.bytes [1, 2], .bytes [3, 4], .bytes [], .bytes []]) =
      .ok (.causeFnLen [1, 2] [3, 4] [] []) ∧
    decode small (.cause 0b00000100 [.bytes [1, 2], .bytes [3, 4], .bytes [5], .bytes [1, 2, 3, 4, 5]]) =
      .ok (.causePayloadLen [1, 2] [3, 4] [5] [1, 2, 3, 4, 5]) ∧
    decode small (.cause 0b00010000 [.byte 0x42]) = .ok (.causeBadOp 0x42) ∧
    decode small (.cause 0b00000101 []) = .error (.causeCode 5) := by decide
/-- Words as spec/opcode_table.json numbers them (log 12). -/
theorem test_table_words :
    decodeTableWord 8 0x01 = some .crcClr ∧ decodeTableWord 8 0x10 = some (.enc [] [] [] []) ∧
    decodeTableWord 8 0x31 = some (.parse []) ∧ decodeTableWord 8 0x42 = some (.unassignedOp 0x42) ∧
    decodeTableWord 24 0x968916 = some (.frameTail 0x96 0x89) ∧
    decodeTableWord 64 0x6805006400010040 = some (.frameHead 0x05 0x00 0x64 0x00 0x01 0x00 0x40) := by
  decide
theorem test_table_word_is_fetched :
    step (State.reset.withFetchWord 8 0x02) = exec (.crcUpd 0x00) State.reset := rfl
/-- The example line of R82. -/
theorem test_program_line : (Instr.enc [0x64, 0x00] [0x01, 0x00] [0x29] [0x01, 0x1e, 0x01, 0x01]).text =
    "ENC [64 00], [01 00], [29], [01 1e 01 01]" := by decide +kernel
theorem test_program_line_byte : (Instr.crcUpd 0x05).text = "CRC.UPD 0x05" := by decide +kernel

/-! ### CRCG (95 section 2.1) -/

theorem test_crcBit_steps_of_0x31 : crcBit 0x1021 true = 0x3063 ∧ crcBit 0xc18c false = 0x9339 ∧
    crcBit 0x60c6 false = 0xc18c := by decide +kernel
theorem test_crcByte_ff_00 : crcByte 0xffff 0x00 = 0xe1f0 := by decide
theorem test_crcByte_top_form : crcByteTop 0x1ef0 0x68 = 0xee51 := by decide
theorem test_crc16_check_value :
    crc16 [0x31, 0x32, 0x33, 0x34, 0x35, 0x36, 0x37, 0x38, 0x39] = 0x31c3 := by decide +kernel
theorem test_crcClr : leaves .crcClr { State.reset with crc := 0x31c3 } (fun t =>
    t.crc == 0x0000 && t.rsp == [.ok]) = true := by decide
theorem test_crcUpd : leaves (.crcUpd 0x31) State.reset (fun t => t.crc == 0x2672) = true := by decide
theorem test_crcUpd_continues : leaves (.crcUpd 0x96) { State.reset with crc := 0x9689 } (fun t =>
    crcByte t.crc 0x89 == 0x0000) = true := by decide +kernel
theorem test_crcRd : leaves .crcRd { State.reset with crc := 0x31c3 } (fun t =>
    t.rsp == [.okCrc 0x31 0xc3] && t.crc == 0x31c3) = true := by decide
theorem test_crcBlk : leaves (.crcBlk [0x05, 0x00]) used (fun t =>
    t.crc == 0xfff5 && t.rsp == [.ok, .ok, .ok, .okCrc 0xff 0xf5]) = true := by decide +kernel
theorem test_crcBlk_empty : leaves (.crcBlk []) used (fun t =>
    t.crc == 0x0000 && t.rsp == [.ok, .okCrc 0x00 0x00]) = true := by decide

/-! ### TXF (95 section 2.2) -/

theorem test_enc : leaves (.enc [0x01, 0x00] [0x64, 0x00] [0x40] []) State.reset (fun t =>
    t.txOut == frame11 && t.rsp == [.okFrame frame11] && t.crc == 0x0000) = true := by decide +kernel
theorem test_enc_first_failing_test : leaves (.enc [0x64] [0x01] [] []) State.reset (fun t =>
    t.txOut == [] && t.eCause == 0x01 && t.errFlags == 0b0001 && t.rsp == [.err 0x01 1]) = true := by
  decide
theorem test_causeDstLen : leaves (.causeDstLen [0x64] [0x01, 0x00] [0x29] []) State.reset (fun t =>
    t.eCause == 0x01 && t.txOut == []) = true := by decide
theorem test_causeSrcLen : leaves (.causeSrcLen [0x64, 0x00] [0x01, 0x00, 0x00] [0x29] []) State.reset
    (fun t => t.eCause == 0x02 && t.rsp == [.err 0x02 3]) = true := by decide
theorem test_causeFnLen : leaves (.causeFnLen [0x64, 0x00] [0x01, 0x00] [0x29, 0x00] []) State.reset
    (fun t => t.eCause == 0x03 && t.rsp == [.err 0x03 2]) = true := by decide
theorem test_causePayloadLen : leaves (.causePayloadLen [0x64, 0x00] [0x01, 0x00] [0x29] [1, 2, 3, 4, 5])
    { State.reset with params := small } (fun t => t.eCause == 0x04 && t.rsp == [.err 0x04 5]) = true := by
  decide

/-! ### RXD (95 section 2.3, 42_rx_deframer.md R150) -/

theorem test_rxByte_completes : leaves (.rxByte 0x16) (collecting [0x68, 0x01]) (fun t =>
    t.candOut == [[0x68, 0x01, 0x16]] && t.rxState == .hunt && t.rxBuf == []) = true := by decide
/-- The 12th byte, 0xa2, finds the buffer of `CAND_MAX` = 11 full and enters DROP. -/
theorem test_rxByte_overflows : leaves (.rxByte 0xa2) full (fun t =>
    t.rxState == .drop && t.rxBuf == [] && t.errFlags == 0b0010 && t.eCause == 0x00) = true := by decide
theorem test_rxFlush : leaves .rxFlush (collecting [0x68, 0x05]) (fun t =>
    t.rxState == .hunt && t.rxBuf == [] && t.rsp == [.ok]) = true := by decide
theorem test_rxFlush_ends_drop : leaves .rxFlush dropping (fun t =>
    t.rxState == .hunt && t.errFlags == 0b0010) = true := by decide
theorem test_split : leaves (.split [0x68, 0x01, 0x16, 0xaa, 0x16, 0x68, 0x02, 0x16, 0x68]) used (fun t =>
    t.candOut == [[0x68, 0x16], [0x68, 0x01, 0x16], [0x68, 0x02, 0x16]] && t.rxState == .hunt) = true := by
  decide
theorem test_splitFrames_vectors :
    splitFrames [0x16, 0x16, 0x00] = [] ∧ splitFrames [0x68, 0x68, 0x16] = [[0x68, 0x68, 0x16]] ∧
    splitFrames [0x68, 0x16, 0x16] = [[0x68, 0x16]] ∧ unfinished [0xaa, 0x68, 0x01] = [0x68, 0x01] := by
  decide
/-- P5: `CAND_MAX` = 11, the 13-byte frame and the 11-byte frame. -/
theorem test_split_bounded : leaves (.split ([0x68, 0x07, 0x00, 0x64, 0x00, 0x01, 0x00, 0xc0, 0x01, 0x02,
    0x5c, 0xa2, 0x16] ++ frame11)) { State.reset with params := small } (fun t =>
    t.candOut == [frame11] && t.errFlags == 0b0010 && t.eCause == 0x00) = true := by decide
theorem test_startByte : leaves .startByte State.reset (fun t =>
    t.rxState == .collect && t.rxBuf == [0x68]) = true := by decide
theorem test_endByte : leaves .endByte dropping (fun t => t.rxState == .hunt) = true := by decide
theorem test_dataByte : leaves (.dataByte 0x05) (collecting [0x68]) (fun t =>
    t.rxBuf == [0x68, 0x05]) = true := by decide
theorem test_fnWrite : leaves .fnWrite (collecting [0x68]) (fun t => t.rxBuf == [0x68, 0x29]) = true := by
  decide
theorem test_fnRead : leaves .fnRead (collecting [0x68]) (fun t => t.rxBuf == [0x68, 0x40]) = true := by
  decide
theorem test_ackA9 : leaves .ackA9 (collecting [0x68]) (fun t => t.rxBuf == [0x68, 0xa9]) = true := by
  decide
theorem test_ackC0 : leaves .ackC0 (collecting [0x68]) (fun t => t.rxBuf == [0x68, 0xc0]) = true := by
  decide
theorem test_frameHead : leaves (.frameHead 0x05 0x00 0x64 0x00 0x01 0x00 0x40) State.reset (fun t =>
    t.rxBuf == [0x68, 0x05, 0x00, 0x64, 0x00, 0x01, 0x00, 0x40]) = true := by decide
theorem test_frameTail : leaves (.frameTail 0x96 0x89)
    (collecting [0x68, 0x05, 0x00, 0x64, 0x00, 0x01, 0x00, 0x40]) (fun t => t.candOut == [frame11]) = true := by
  decide

/-! ### FCHK (95 section 2.4) -/

theorem test_verify : leaves (.verify frame11) State.reset (fun t =>
    t.rsp == [.okVerdict true] && t.chk.len == 5 && t.chk.calcCrc == 0x9689 && t.chk.crc == 0x9689) = true := by
  decide +kernel
/-- `68 05 00 64 00 01 00 40 96 88 16`: only the CRC test fails. -/
theorem test_verify_bad_crc : leaves (.verify [0x68, 0x05, 0x00, 0x64, 0x00, 0x01, 0x00, 0x40, 0x96, 0x88,
    0x16]) State.reset (fun t => t.rsp == [.okVerdict false] && t.chk.delimOk && t.chk.lenOk &&
      !t.chk.crcOk && t.chk.crc == 0x9688) = true := by decide +kernel
theorem test_fchk_length_off_by_one : fchk Params.default
    [0x68, 0x06, 0x00, 0x64, 0x00, 0x01, 0x00, 0x40, 0x4e, 0x0b, 0x16] =
    { n := 11, valid := true, len := 6, src0 := 0x64, src1 := 0x00, dst0 := 0x01, dst1 := 0x00, fn := 0x40,
      plen := 0, pay := [], crc := 0x4e0b, calcCrc := 0x4e0b, delimOk := true, lenOk := false,
      crcOk := true, ok := false, ackValid := true, ack := 0x40 } := by decide +kernel
/-- The stray 0x68 that swallowed a good frame. -/
theorem test_fchk_stray_start : fchk small
    ([0x68, 0xaa] ++ frame11) =
    { n := 13, valid := true, len := 0x68aa, src0 := 0x05, src1 := 0x00, dst0 := 0x64, dst1 := 0x00,
      fn := 0x01, plen := 2, pay := [0x00, 0x40], crc := 0x9689, calcCrc := 0xf23d, delimOk := true,
      lenOk := false, crcOk := false, ok := false, ackValid := true, ack := 0x00 } := by decide +kernel
theorem test_parse : leaves (.parse frame15) State.reset (fun t => t.rsp == [.okParse
    { valid := true, ok := true, dst := [0x64, 0x00], src := [0x01, 0x00], fn := 0x29, len := 9,
      payload := [0x01, 0x1e, 0x01, 0x01], crc := 0x4e36, ackValid := true, ack := 0x29, n := 15 }]) = true := by
  decide +kernel
/-- 8 bytes, self-consistent: not valid, but the acknowledgement byte at offset 6 is reported. -/
theorem test_parse_short : leaves (.parse [0x68, 0x02, 0x00, 0xaa, 0xbb, 0x09, 0x6d, 0x16])
    { State.reset with params := small } (fun t => t.rsp == [.okParse
    { valid := false, ok := false, dst := [0x00, 0x00], src := [0x00, 0x00], fn := 0x00, len := 0,
      payload := [], crc := 0x0000, ackValid := true, ack := 0x6d, n := 8 }]) = true := by decide
theorem test_checkAll : leaves .checkAll
    { State.reset with candOut := [[0x68, 0x16], cut10, frame11], candSeen := 1 } (fun t => t.rsp == [.okVerdict false, .okVerdict true] && t.chk.n == 11 &&
      t.candSeen == 3) = true := by decide +kernel
theorem test_checkAll_nothing_new : leaves .checkAll { used with candSeen := 1 } (fun t =>
    t == { used with candSeen := 1 }) = true := by decide

/-! ### Control and exceptions (95 section 2.5) -/

theorem test_srst : leaves .srst used (fun t => t.crc == 0x0000 && t.rxState == .hunt && t.rxBuf == [] &&
    t.chk == CheckRegs.reset && t.errFlags == 0b0000 && t.eCause == 0x00 && t.txOut.length == 11 &&
    t.candOut == [[0x68, 0x16]]) = true := by decide
theorem test_reset : leaves .reset used (fun t => t == State.reset) = true := by decide
theorem test_clrErr : leaves .clrErr { dropping with errFlags := 0b0011, eCause := 0x04 } (fun t =>
    t.errFlags == 0b0000 && t.eCause == 0x00 && t.rxState == .drop) = true := by decide
theorem test_causeNone : leaves .causeNone used (fun t =>
    t.errFlags == 0b0000 && t.eCause == 0x00 && t.crc == 0x2672) = true := by decide
theorem test_unassignedOp : leaves (.unassignedOp 0xff) used (fun t =>
    t.errFlags == 0b0101 && t.eCause == 0x10 && t.rsp == [.err 0x10 255] && t.crc == 0x2672) = true := by
  decide
theorem test_causeBadOp : leaves (.causeBadOp 0x42) State.reset (fun t =>
    t.errFlags == 0b0100 && t.rsp == [.err 0x10 0x42]) = true := by decide
theorem test_step_waits : step State.reset = .next State.reset := rfl
theorem test_step_refuses_overlong :
    step { State.reset with params := small, arrivals := [.op 0x30 [.bytes frame15]] } =
      .refused (.malformed .illFormed) := rfl

/-! ### Witnesses: states and operands that meet the hypotheses of the statements -/

/-- A state that meets the invariant, with a candidate begun and another delivered. -/
def living : State := { collecting [0x68, 0x00] with params := small, candOut := [[0x68, 0x16]] }

theorem test_living_inv : living.Inv where
  empty_unless_collecting := fun h => absurd rfl h
  collecting := fun _ => ⟨⟨[0x00], rfl⟩, by decide, by decide⟩
  drop_needs_bound := nofun
  candidates := fun c hc => by
    rw [List.mem_singleton.mp hc]; exact ⟨[], rfl, List.not_mem_nil, by decide⟩
  checked := ⟨[], by decide, by decide⟩
  bit3_zero := by decide
  cause_recorded := .inl (by decide)
  seen_le := by decide

theorem test_witness_CrcIsLinearAndSeesOneBit :
    [0x01#8, 0xff].length = [0x80#8, 0x00].length ∧ 1 < [0x01#8, 0xff].length ∧ 7 < 8 := by decide
theorem test_witness_ZeroResidue : 11 ≤ frame11.length := by decide
theorem test_witness_OtherUnitsNeverTouchCrc :
    unitOf (.verify frame11) ≠ some .crcg ∧ Instr.verify frame11 ≠ .srst ∧ Instr.verify frame11 ≠ .reset ∧
    exec (.verify frame11) used = .next (verifyFrame frame11 used) := by
  refine ⟨by decide, by decide, by decide, rfl⟩
/-- The largest payload `PAYLOAD_MAX` = 4 admits; for EncAppendsTheFrame, EncodedFramesVerify,
EncFrameHasTheLayout and ParseReadsBackWhatEncSent. -/
theorem test_witness_enc_operands : [0x64#8, 0x00].length = 2 ∧ [0x01#8, 0x00].length = 2 ∧
    [0x29#8].length = 1 ∧ [1#8, 2, 3, 4].length ≤ living.params.payloadMax.val := by decide
theorem test_witness_EncRaisesTheFirstFailingTest :
    [0x64#8, 0x00, 0x00].length ≠ 2 ∧ ([0x64#8, 0x00].length = 2 ∧ [0x01#8].length ≠ 2) ∧
    ([0x64#8, 0x00].length = 2 ∧ [0x01#8, 0x00].length = 2 ∧ ([] : List Byte).length ≠ 1) ∧
    ([0x64#8, 0x00].length = 2 ∧ [0x01#8, 0x00].length = 2 ∧ [0x29#8].length = 1 ∧
      living.params.payloadMax.val < [1#8, 2, 3, 4, 5].length) := by decide
theorem test_witness_AcceptedFrameIsRebuiltFromItsFields :
    ∃ t, exec (.verify frame15) living = .next t ∧ t.chk.ok = true ∧
      t.chk.plen ≤ living.params.payloadMax.val :=
  ⟨_, rfl, by decide +kernel, by decide +kernel⟩
/-- One flip for each clause: at both ends of the middle section, in LEN, in both CRC bytes, in the marks. -/
theorem test_witness_AnySingleBitFlipIsRejected : (fchk small frame15).ok = true ∧
    (∀ ik ∈ [(0, 0), (1, 7), (2, 0), (3, 0), (11, 7), (12, 0), (13, 7), (14, 7)],
      ik.1 < frame15.length ∧ ik.2 < 8 ∧ (fchk small (flipBit frame15 ik.1 ik.2)).ok = false) ∧
    living.params = small := by decide +kernel
/-- A state for each row of the table; 10 bytes is the last length with room under `CAND_MAX` = 11. -/
theorem test_witness_RxByteFollowsTheTable :
    State.reset.rxState = .hunt ∧ (0x16#8 : Byte) ≠ 0x68 ∧
    (living.rxState = .collect ∧ living.params.candMax.admits (living.rxBuf.length + 1) = true) ∧
    ({ full with rxBuf := List.replicate 10 0x68 } : State).params.candMax.admits (10 + 1) = true ∧
    (full.rxState = .collect ∧ full.rxBuf.length = 11 ∧ full.params.candMax = .atMost 11 (by decide)) ∧
    dropping.rxState = .drop := by decide
theorem test_witness_RxStateMovesOnlyAlongTheList : ∃ t, exec (.rxByte 0x68) living = .next t ∧
    living.rxState = .collect ∧ t.rxState = .collect := ⟨_, rfl, by decide, by decide⟩
theorem test_witness_CompletedCandidateShape : living.Inv ∧ ∃ t, exec (.rxByte 0x16) living = .next t ∧
    t.candOut ≠ living.candOut := ⟨test_living_inv, _, rfl, by decide⟩
/-- For RxStreamEqualsSplitFrames, and for BatchPolicyDecidesReassembly with the default parameters. -/
theorem test_witness_hunting : State.reset.rxState = .hunt ∧ State.reset.rxBuf = [] ∧
    State.reset.params.candMax = .unbounded := by decide
theorem test_witness_CandidatesAreDisjointSlices : unfinished [0x00, 0x68, 0x16, 0x68] ≠ [] := by decide
/-- Frames that survive SPLIT and frames that do not (95 section 2.3). -/
theorem test_witness_FrameSurvivesSplitIffNoInnerEnd :
    ((fchk small frame11).ok = true ∧ small.candMax.admits frame11.length = true ∧
      0x16 ∉ slice frame11 1 (frame11.length - 1)) ∧
    ((fchk small (cut10 ++ [0x16])).ok = true ∧ 0x16 ∈ slice (cut10 ++ [0x16]) 1 10) := by decide +kernel
theorem test_witness_BufferContentIsHiddenUntilTheEnd :
    [0x68#8, 0xaa].length = living.rxBuf.length ∧ (0x68#8 : Byte) ≠ 0x16 := by decide
/-- For FrameHeadOpensAndFrameTailCloses; ByteClassesActAsTheTableSays and FunctionAndAckBytesAreCarried
take the states of the table's witness. -/
theorem test_witness_FrameHeadOpensAndFrameTailCloses :
    State.reset.rxState = .hunt ∧ (0x16#8 : Byte) ∉ [0x05, 0x00, 0x64, 0x00, 0x01, 0x00, 0x40] ∧
    (∀ s ∈ [({ collecting [0x68, 1, 2, 3, 4, 5, 6, 7] with params := small } : State)],
      s.rxState = .collect ∧ s.params.candMax.admits (s.rxBuf.length + 3) = true) ∧
    (0x96#8 : Byte) ≠ 0x16 ∧ (0x89#8 : Byte) ≠ 0x16 := by decide
theorem test_witness_carried : (Instr.ackA9, 0xa9#8) ∈
    [(Instr.fnWrite, 0x29#8), (.fnRead, 0x40#8), (.ackA9, 0xa9#8), (.ackC0, 0xc0#8)] ∧
    State.reset.rxState ≠ .collect := by decide
/-- For VerifyReadsEveryField and ParseAnswersTheRegisters; 11 bytes is the boundary on both sides. -/
theorem test_witness_checks : 11 ≤ frame11.length ∧ small.candMax.admits frame11.length = true ∧
    cut10.length < 11 ∧ ([] : List Byte).length < 11 := by decide
/-- Two states that agree in nothing but the parameters. -/
theorem test_witness_ChecksDependOnTheOperandAlone :
    (Instr.parse frame11 = .verify frame11 ∨ Instr.parse frame11 = .parse frame11) ∧
    ({ used with params := small } : State).params = living.params := by decide
theorem test_witness_UnassignedCodesRaiseBadOp :
    (0x42#8 : Byte) ∉ [0x01#8, 0x02, 0x03, 0x10, 0x20, 0x21, 0x30, 0x31, 0x40, 0x41] ∧
    ({ used with arrivals := [.op 0x42 [.byte 0]] } : State).arrivals = .op 0x42 [.byte 0] :: [] := by
  decide
theorem test_witness_CauseRowsEndWithTheirCode :
    (Instr.causeDstLen [1] [] [] []).wellFormed small = true ∧
    (Instr.causeSrcLen [1, 2] [] [] []).wellFormed small = true ∧
    (Instr.causeFnLen [1, 2] [3, 4] [] []).wellFormed small = true ∧
    (Instr.causePayloadLen [1, 2] [3, 4] [5] [1, 2, 3, 4, 5]).wellFormed small = true := by decide
/-- For ErrorFlagsAreSticky and ErrorFlagsDoNotGate. -/
theorem test_witness_ErrorFlagsAreSticky : ∃ t, exec (.rxByte 0x00) full = .next t ∧
    t.errFlags.getLsbD 1 = true := ⟨_, rfl, by decide⟩
theorem test_witness_CauseRegisterFollowsRaises : ∃ t, exec (.enc [] [] [] []) living = .next t ∧
    t.eCause ≠ living.eCause := ⟨_, rfl, by decide⟩
theorem test_witness_HistoriesAreAppendOnly : Instr.split [0x68, 0x16] ≠ .reset ∧
    ∃ t, exec (.split [0x68, 0x16]) living = .next t := ⟨by decide, _, rfl⟩
theorem test_witness_OnlyChecksWriteTheResultRegisters : ∃ t, exec (.verify [0x00]) living = .next t ∧
    t.chk ≠ living.chk := ⟨_, rfl, by decide⟩
theorem test_witness_DifferentUnitsCommute : unitOf (.rxByte 0x00) = some .rxd ∧
    unitOf (.enc [] [] [] []) = some .txf ∧ UnitName.rxd ≠ .txf := by decide
/-- For EveryIssuedOperationCompletes and StepRunsTheDecodedInstruction. -/
theorem test_witness_issued : ({ living with arrivals := [.op 0x30 [.bytes frame11], .event] } : State).arrivals =
    .op 0x30 [.bytes frame11] :: [.event] ∧
    decode living.params (.op 0x30 [.bytes frame11]) = .ok (.verify frame11) := by decide
theorem test_witness_BlockWaitsForTheNextOperation : living.arrivals = [] := by decide
/-- 11 and 12 bytes, on the two sides of `CAND_MAX` = 11. -/
theorem test_witness_OverlongOperandsAreRefused : (0x31#8 : Byte) = 0x31 ∧
    ({ living with arrivals := [.op 0x31 [.bytes (0x00 :: frame11)]] } : State).arrivals =
      .op 0x31 [.bytes (0x00 :: frame11)] :: [] ∧
    living.params.candMax = .atMost 11 (by decide) ∧ 11 < (0x00 :: frame11).length := by decide
theorem test_witness_DecodeEncodeRoundTrip : (Instr.verify frame11).wellFormed small = true ∧
    (Instr.unassignedOp 0xff).wellFormed small = true := by decide
theorem test_witness_DecodedTransactionsAreWellFormed :
    decode small (.op 0xff [.byte 0]) = .ok (.unassignedOp 0xff) := by decide
theorem test_witness_EveryStepKeepsTheInvariant : living.Inv ∧ ∃ t, step living = .next t :=
  ⟨test_living_inv, _, rfl⟩

end Sys2Proof.Tests
end

section
/-!
PROOFS. The invariant of the block: what each register update keeps of it, then the shared operations, then
`exec` and `step`.
-/

namespace Sys2Proof.Machine

/-! ### Flag masks -/

/-- Setting further flags leaves the set ones set. -/
theorem and_or_of_and_eq {flags mask : BitVec 4} (more : BitVec 4) (h : flags &&& mask = mask) :
    (flags ||| more) &&& mask = mask := by
  ext k hk
  have hk' : (flags[k] && mask[k]) = mask[k] := by rw [← BitVec.getElem_and, h]
  rw [BitVec.getElem_and, BitVec.getElem_or, Bool.and_or_distrib_right, hk']
  cases mask[k] <;> simp

theorem or_mask_and_mask (flags mask : BitVec 4) : (flags ||| mask) &&& mask = mask := by
  rw [BitVec.or_comm]
  exact and_or_of_and_eq flags BitVec.and_self

theorem causeFlag_bit3 (c : Cause) : (causeFlag c).getLsbD 3 = false := by
  cases c <;> rfl

section
variable {s : State}

/-! ### Register updates -/

/-- The invariant says nothing of `crc`, `tx_out`, the answers and the queue. -/
theorem State.Inv.unobserved (h : s.Inv) (c : Half) (out : List Byte) (answers : List Answer)
    (queue : List Arrival) :
    State.Inv { s with crc := c, txOut := out, rsp := answers, arrivals := queue } := { h with }

theorem State.Inv.respond (h : s.Inv) (a : Answer) : (respond a s).Inv :=
  h.unobserved s.crc s.txOut (s.rsp ++ [a]) s.arrivals

/-- RXD leaves COLLECT, with an empty buffer (R26). -/
theorem State.Inv.idle (h : s.Inv) {st : RxState} (hst : st ≠ .collect)
    (hd : st = .drop → s.params.candMax ≠ .unbounded) : State.Inv { s with rxState := st, rxBuf := [] } :=
  { h with
    empty_unless_collecting := fun _ => rfl
    collecting := fun hc => absurd hc hst
    drop_needs_bound := hd }

theorem State.Inv.hunting (h : s.Inv) : State.Inv { s with rxState := .hunt, rxBuf := [] } :=
  h.idle (by simp) (by simp)

/-- RXD goes on in COLLECT with the beginning of a candidate (R26). -/
theorem State.Inv.collect (h : s.Inv) {rest : List Byte} (he : Config.endMark ∉ rest)
    (hm : s.params.candMax.admits (rest.length + 1) = true) :
    State.Inv { s with rxState := .collect, rxBuf := Config.startMark :: rest } :=
  { h with
    empty_unless_collecting := fun hc => absurd rfl hc
    collecting := fun _ => ⟨⟨rest, rfl⟩, by simp [he, startMark_ne_endMark.symm], hm⟩
    drop_needs_bound := by simp }

/-- One more candidate is delivered (R144). -/
theorem State.Inv.deliver (h : s.Inv) {c : List Byte} (hc : IsCandidate s.params.candMax c) :
    State.Inv { s with candOut := s.candOut ++ [c] } :=
  { h with
    candidates := by
      intro d hd
      rcases List.mem_append.mp hd with hd | hd
      · exact h.candidates d hd
      · rwa [List.mem_singleton.mp hd]
    seen_le := by simpa using Nat.le_succ_of_le h.seen_le }

/-- `RX_OVF` is set; the flags behind `E_CAUSE` are other ones (R28, R196). -/
theorem State.Inv.setRxOvf (h : s.Inv) : State.Inv { s with errFlags := s.errFlags ||| rxOvfBit } :=
  { h with
    bit3_zero := by rw [BitVec.getLsbD_or, h.bit3_zero]; rfl
    cause_recorded := by
      rcases h.cause_recorded with ⟨hc, he, hb⟩ | ⟨c, hc, hf⟩
      · refine .inl ⟨hc, ?_, ?_⟩
        · simpa [State.encErr, rxOvfBit] using he
        · simpa [State.badOp, rxOvfBit] using hb
      · exact .inr ⟨c, hc, and_or_of_and_eq _ hf⟩ }

/-- The trap entry records the cause together with its flag (R196). -/
theorem State.Inv.raise (h : s.Inv) (c : Cause) (n : Nat) : (raise c n s).Inv :=
  { h with
    bit3_zero := by rw [raise_errFlags, BitVec.getLsbD_or, h.bit3_zero, causeFlag_bit3]; rfl
    cause_recorded := .inr ⟨c, rfl, or_mask_and_mask _ _⟩ }

/-- The error registers are cleared together (R182). -/
theorem State.Inv.clearErrors (h : s.Inv) : (clearErrors s).Inv :=
  { h with
    bit3_zero := BitVec.getLsbD_zero
    cause_recorded := .inl ⟨rfl, BitVec.getLsbD_zero, BitVec.getLsbD_zero⟩ }

/-- The result registers take the result of one check (R27). -/
theorem State.Inv.check (h : s.Inv) {f : List Byte} (hf : s.params.candMax.admits f.length = true) :
    (check f s).Inv :=
  { h with
    checked := ⟨f, hf, rfl⟩ }

/-- CHECKALL's mark moves along `cand_out` (log 4). -/
theorem State.Inv.markSeen (h : s.Inv) {n : Nat} (hn : n ≤ s.candOut.length) :
    State.Inv { s with candSeen := n } :=
  { h with
    seen_le := hn }

/-- The reset values of every register and buffer (R34), with any candidates delivered before. -/
theorem inv_of_reset_registers {t : State} (hst : t.rxState = .hunt) (hbuf : t.rxBuf = [])
    (hchk : t.chk = CheckRegs.reset) (hflags : t.errFlags = 0b0000) (hcause : t.eCause = noCause)
    (hcand : ∀ c ∈ t.candOut, IsCandidate t.params.candMax c) (hseen : t.candSeen ≤ t.candOut.length) :
    t.Inv where
  empty_unless_collecting := fun _ => hbuf
  collecting := by simp [hst]
  drop_needs_bound := by simp [hst]
  candidates := hcand
  checked := ⟨[], admits_of_le_eleven _ (by simp), by rw [hchk, fchk_nil]⟩
  bit3_zero := by simp [hflags]
  cause_recorded := .inl ⟨hcause, by simp [State.encErr, hflags], by simp [State.badOp, hflags]⟩
  seen_le := hseen

/-! ### The operations -/

theorem State.Inv.clearRegisters (h : s.Inv) : (clearRegisters s).Inv :=
  inv_of_reset_registers rfl rfl rfl rfl rfl h.candidates h.seen_le

theorem hardReset_inv (s : State) : (hardReset s).Inv :=
  inv_of_reset_registers rfl rfl rfl rfl rfl (by simp) (by simp)

/-- A received byte in COLLECT: no room, the end byte, or one byte more (R142). -/
theorem State.Inv.rxByte_collecting (h : s.Inv) (hst : s.rxState = .collect) (b : Byte) :
    (rxByte b s).Inv := by
  obtain ⟨⟨rest, hbuf⟩, hend, hadm⟩ := h.collecting hst
  have hrest : Config.endMark ∉ rest := fun hm => hend (by simp [hbuf, hm])
  have hroom := roomGone_eq_not_admits _ hadm
  cases hr : roomGone s.params.candMax s.rxBuf.length with
  | true =>
    obtain ⟨_, hbound⟩ := (roomGone_iff _ _).mp hr
    by_cases hb : b = Config.endMark
    · rw [hb, rxByte_full_end hst hr]
      exact h.setRxOvf.hunting
    · rw [rxByte_full_other hst hr hb]
      exact h.setRxOvf.idle (by simp) (by simp [hbound])
  | false =>
    have hadm' : s.params.candMax.admits (rest.length + 1 + 1) = true := by
      rw [hr, hbuf] at hroom; simpa using hroom.symm
    by_cases hb : b = Config.endMark
    · rw [hb, rxByte_collect_end hst hr]
      exact (h.deliver ⟨rest, by simp [hbuf], hrest, by simpa [hbuf] using hadm'⟩).hunting
    · rw [rxByte_collect_other hst hr hb]
      have hkeep := h.collect (rest := rest ++ [b]) (by simp [hrest, Ne.symm hb]) (by simpa using hadm')
      rwa [← List.cons_append, ← hbuf, ← hst] at hkeep

theorem State.Inv.rxByte (h : s.Inv) (b : Byte) : (rxByte b s).Inv := by
  cases hst : s.rxState with
  | hunt =>
    by_cases hb : b = Config.startMark
    · rw [hb, rxByte_hunt_start hst]
      exact h.collect (by simp) (admits_of_le_eleven _ (by simp))
    · rwa [rxByte_hunt_other hst hb]
  | collect => exact h.rxByte_collecting hst b
  | drop =>
    by_cases hb : b = Config.endMark
    · have hempty := h.empty_unless_collecting (by simp [hst])
      rw [hb, rxByte_drop_end hst]
      have hhunt := h.hunting
      rwa [← hempty] at hhunt
    · rwa [rxByte_drop_other hst hb]

theorem State.Inv.rxBytes (h : s.Inv) (bs : List Byte) : (rxBytes bs s).Inv :=
  rxBytes_keeps (fun b _ hs => hs.rxByte b) bs s h

theorem State.Inv.rxFlush (h : s.Inv) : (rxFlush s).Inv := h.hunting.respond .ok

theorem State.Inv.splitBuffer (h : s.Inv) (bs : List Byte) : (splitBuffer bs s).Inv :=
  (h.rxFlush.rxBytes bs).rxFlush

theorem State.Inv.encodeFrame (h : s.Inv) (dst src fn payload : List Byte) :
    (encodeFrame dst src fn payload s).Inv := by
  rcases encodeFrame_cases dst src fn payload s with ⟨c, n, -, he⟩ | ⟨-, -, -, -, he⟩ <;> rw [he]
  · exact h.raise c n
  · exact h.unobserved s.crc _ _ s.arrivals

/-- VERIFY of sequences that `CAND_MAX` admits, one after another. -/
theorem State.Inv.foldl_verifyFrame (h : s.Inv) (cs : List (List Byte))
    (hcs : ∀ c ∈ cs, s.params.candMax.admits c.length = true) :
    (cs.foldl (fun s c => verifyFrame c s) s).Inv := by
  induction cs generalizing s with
  | nil => exact h
  | cons c cs ih =>
    rw [List.foldl_cons]
    exact ih ((h.check (hcs c (by simp))).respond _) fun d hd => hcs d (by simp [hd])

/-- CHECKALL verifies delivered candidates, which `CAND_MAX` admits (R144). -/
theorem State.Inv.checkAll (h : s.Inv) : (checkAll s).Inv := by
  have hnew : ∀ c ∈ s.newCandidates, s.params.candMax.admits c.length = true := by
    intro c hc
    obtain ⟨_, _, _, hadm⟩ := h.candidates c (List.mem_of_mem_drop hc)
    exact hadm
  refine (h.foldl_verifyFrame _ hnew).markSeen ?_
  rw [Machine.foldl_verifyFrame]

/-! ### Instructions and steps -/

/-- A well-formed instruction keeps the invariant; well-formedness bounds the operand of a check (R80). -/
theorem State.Inv.exec (h : s.Inv) {i : Instr} (hw : i.wellFormed s.params = true) {t : State}
    (he : exec i s = .next t) : t.Inv := by
  rcases exec_cases he with ⟨-, bs, rfl⟩ | ⟨-, rfl⟩ | ⟨-, bs, rfl⟩ | ⟨-, dst, src, fn, payload, rfl⟩ |
    ⟨-, op, rfl⟩ | ⟨-, c, answers, rfl⟩ | ⟨-, f, answer, hi, rfl⟩ | ⟨-, rfl⟩ | ⟨-, rfl⟩ | ⟨-, rfl⟩ |
    ⟨-, rfl⟩
  · exact h.rxBytes bs
  · exact h.rxFlush
  · exact h.splitBuffer bs
  · exact h.encodeFrame dst src fn payload
  · exact h.raise _ _
  · exact h.unobserved c s.txOut _ s.arrivals
  · have hf : s.params.candMax.admits f.length = true := by
      rcases hi with rfl | rfl <;> exact hw
    exact (h.check hf).respond answer
  · exact h.checkAll
  · exact h.clearErrors
  · exact h.clearRegisters.respond .ok
  · exact hardReset_inv s

end

/-- Settles O60: every instruction that decodes is well formed, and such an instruction keeps the invariant. -/
theorem everyStepKeepsTheInvariant : Obligations.EveryStepKeepsTheInvariant := by
  intro s t h hstep
  rcases step_cases hstep with ⟨-, rfl⟩ | ⟨a, later, i, -, hd, he⟩
  · exact h
  · exact (h.unobserved s.crc s.txOut s.rsp later).exec (wellFormed_of_decode hd) he

/-- Settles O59: every register has its reset value and no candidate was delivered. -/
theorem resetMeetsTheInvariant : Obligations.ResetMeetsTheInvariant := fun _ _ =>
  inv_of_reset_registers rfl rfl rfl rfl rfl (by simp [State.reset]) (by simp [State.reset])

end Sys2Proof.Machine
end

section
/-!
PROOFS. What each instruction writes, unit by unit, and what follows for `ERRFLAGS`, `E_CAUSE`, the result
registers and the histories.
-/

namespace Sys2Proof.Machine

/-- The frame ENC builds passes every check (R127). -/
theorem fchk_buildFrame_ok (p : Params) {dst src fn payload : List Byte} (hdst : dst.length = 2)
    (hsrc : src.length = 2) (hfn : fn.length = 1) (hpay : payload.length ≤ 65530) :
    (fchk p (buildFrame dst src fn payload)).ok = true := by
  obtain ⟨d0, d1, rfl⟩ := List.length_eq_two.mp hdst
  obtain ⟨s0, s1, rfl⟩ := List.length_eq_two.mp hsrc
  obtain ⟨f0, rfl⟩ := List.length_eq_one_iff.mp hfn
  have hlen : (5 + payload.length) % 65536 = payload.length + 5 := by omega
  rw [buildFrame_eq_fieldsOf, fchk_fieldsOf]
  simp [hlen]

/-! ### What an instruction writes -/

/-- `Wrote i s t`: the fields in which `t` differs from `s` are ones that `i` may write, by its unit (R61). -/
inductive Wrote (i : Instr) (s : State) : State → Prop
  /-- RXD: its own state, candidates appended, `RX_OVF`. -/
  | rxd (st : RxState) (buf : List Byte) (found : List (List Byte)) (flags : BitVec 4)
      (answers : List Answer) (hu : unitOf i = some .rxd) (hf : flags = 0 ∨ flags = rxOvfBit) :
      Wrote i s { s with
        rxState := st, rxBuf := buf, candOut := s.candOut ++ found, errFlags := s.errFlags ||| flags
        rsp := s.rsp ++ answers }
  /-- An exception, of TXF or of the decoder, by the trap entry (R190, R196). -/
  | raised (c : Cause) (n : Nat)
      (hu : unitOf i = some .txf ∧ causeFlag c = encErrBit ∨
        unitOf i = some .decoder ∧ causeFlag c = badOpBit) : Wrote i s (raise c n s)
  /-- TXF: a whole good frame. -/
  | sent (frame : List Byte) (hu : unitOf i = some .txf) (hok : (fchk s.params frame).ok = true) :
      Wrote i s (respond (.okFrame frame) { s with txOut := s.txOut ++ frame })
  /-- CRCG: `crc`. -/
  | crcg (c : Half) (answers : List Answer) (hu : unitOf i = some .crcg) :
      Wrote i s { s with crc := c, rsp := s.rsp ++ answers }
  /-- FCHK, or CHECKALL: the result registers and CHECKALL's mark. -/
  | checked (regs : CheckRegs) (answers : List Answer) (seen : Nat)
      (hi : unitOf i = some .fchk ∨ i = .checkAll) :
      Wrote i s { s with chk := regs, rsp := s.rsp ++ answers, candSeen := seen }
  /-- CLRERR, or the row of cause 0x00. -/
  | cleared (hi : i = .clrErr ∨ i = .causeNone) : Wrote i s (clearErrors s)
  /-- SRST. -/
  | srst (hi : i = .srst) : Wrote i s (softReset s)
  /-- RESET. -/
  | reset (hi : i = .reset) : Wrote i s (hardReset s)

section
variable {i : Instr} {s : State}

/-- A set of flags that `RX_OVF` joined or did not is the old flags and a mask. -/
theorem exists_rxFlags {old new : BitVec 4} (h : new = old ∨ new = old ||| rxOvfBit) :
    ∃ flags, new = old ||| flags ∧ (flags = 0 ∨ flags = rxOvfBit) := by
  rcases h with rfl | rfl
  · exact ⟨0, (BitVec.or_zero).symm, .inl rfl⟩
  · exact ⟨rxOvfBit, rfl, .inr rfl⟩

theorem wrote_rxBytes (hu : unitOf i = some .rxd) (bs : List Byte) : Wrote i s (rxBytes bs s) := by
  obtain ⟨st, buf, found, new, he, hnew⟩ := rxBytes_frame bs s
  obtain ⟨flags, rfl, hf⟩ := exists_rxFlags hnew
  rw [he]
  simpa using Wrote.rxd (s := s) st buf found flags [] hu hf

theorem wrote_rxFlush (hu : unitOf i = some .rxd) : Wrote i s (rxFlush s) := by
  simpa [rxFlush, respond] using Wrote.rxd (s := s) .hunt [] [] 0 [.ok] hu (.inl rfl)

theorem wrote_splitBuffer (hu : unitOf i = some .rxd) (bs : List Byte) : Wrote i s (splitBuffer bs s) := by
  obtain ⟨found, new, he, hnew⟩ := splitBuffer_frame bs s
  obtain ⟨flags, rfl, hf⟩ := exists_rxFlags hnew
  rw [he]
  exact .rxd .hunt [] found flags [.ok, .ok] hu hf

theorem causeFlag_of_ne_badOp {c : Cause} (hc : c ≠ .badOp) : causeFlag c = encErrBit := by
  cases c with
  | badOp => exact absurd rfl hc
  | _ => rfl

theorem wrote_encodeFrame (hu : unitOf i = some .txf) (dst src fn payload : List Byte) :
    Wrote i s (encodeFrame dst src fn payload s) := by
  rcases encodeFrame_cases dst src fn payload s with ⟨c, n, hc, he⟩ | ⟨hdst, hsrc, hfn, hpay, he⟩ <;> rw [he]
  · exact .raised c n (.inl ⟨hu, causeFlag_of_ne_badOp hc⟩)
  · have := s.params.payloadMax.isLt
    exact .sent _ hu (fchk_buildFrame_ok _ hdst hsrc hfn (by omega))

theorem wrote_checkAll : Wrote .checkAll s (checkAll s) := by
  rw [checkAll, foldl_verifyFrame]
  exact .checked _ _ _ (.inr rfl)

/-- Every instruction writes only what its unit owns. -/
theorem exec_wrote {t : State} (h : exec i s = .next t) : Wrote i s t := by
  rcases exec_cases h with ⟨hu, bs, rfl⟩ | ⟨hu, rfl⟩ | ⟨hu, bs, rfl⟩ | ⟨hu, dst, src, fn, payload, rfl⟩ |
    ⟨hu, op, rfl⟩ | ⟨hu, c, answers, rfl⟩ | ⟨hu, f, answer, -, rfl⟩ | ⟨rfl, rfl⟩ | ⟨hi, rfl⟩ | ⟨hi, rfl⟩ |
    ⟨hi, rfl⟩
  · exact wrote_rxBytes hu bs
  · exact wrote_rxFlush hu
  · exact wrote_splitBuffer hu bs
  · exact wrote_encodeFrame hu dst src fn payload
  · exact .raised .badOp op.toNat (.inr ⟨hu, rfl⟩)
  · exact .crcg c answers hu
  · exact .checked _ [answer] s.candSeen (.inl hu)
  · exact wrote_checkAll
  · exact .cleared hi
  · exact .srst hi
  · exact .reset hi

/-! ### ERRFLAGS -/

/-- The four clears act on all units, and so belong to none. -/
theorem not_clear_of_unitOf {u : UnitName} (hu : unitOf i = some u) :
    i ∉ [Instr.clrErr, .srst, .reset, .causeNone] := by
  intro hi
  simp only [List.mem_cons, List.not_mem_nil, or_false] at hi
  rcases hi with rfl | rfl | rfl | rfl <;> cases hu

/-- An instruction clears `ERRFLAGS`, or sets at most the one flag of its unit (R28). -/
theorem exec_errFlags {t : State} (h : exec i s = .next t) :
    (i ∈ [Instr.clrErr, .srst, .reset, .causeNone] ∧ t.errFlags = 0b0000) ∨
    (i ∉ [Instr.clrErr, .srst, .reset, .causeNone] ∧ ∃ flags, t.errFlags = s.errFlags ||| flags ∧
      (flags = 0 ∨ flags = encErrBit ∧ unitOf i = some .txf ∨ flags = rxOvfBit ∧ unitOf i = some .rxd ∨
        flags = badOpBit ∧ unitOf i = some .decoder)) := by
  cases exec_wrote h with
  | rxd st buf found flags answers hu hf =>
    refine .inr ⟨not_clear_of_unitOf hu, flags, rfl, ?_⟩
    rcases hf with hf | hf
    · exact .inl hf
    · exact .inr (.inr (.inl ⟨hf, hu⟩))
  | raised c n hu =>
    refine .inr ⟨?_, causeFlag c, rfl, ?_⟩
    · rcases hu with ⟨hu, -⟩ | ⟨hu, -⟩ <;> exact not_clear_of_unitOf hu
    · rcases hu with ⟨hu, hc⟩ | ⟨hu, hc⟩
      · exact .inr (.inl ⟨hc, hu⟩)
      · exact .inr (.inr (.inr ⟨hc, hu⟩))
  | sent frame hu => exact .inr ⟨not_clear_of_unitOf hu, 0, BitVec.or_zero.symm, .inl rfl⟩
  | crcg c answers hu => exact .inr ⟨not_clear_of_unitOf hu, 0, BitVec.or_zero.symm, .inl rfl⟩
  | checked regs answers seen hi =>
    refine .inr ⟨?_, 0, BitVec.or_zero.symm, .inl rfl⟩
    rcases hi with hu | rfl
    · exact not_clear_of_unitOf hu
    · decide
  | cleared hi => exact .inl ⟨by rcases hi with rfl | rfl <;> simp, rfl⟩
  | srst hi => exact .inl ⟨by simp [hi], rfl⟩
  | reset hi => exact .inl ⟨by simp [hi], rfl⟩

end

/-- Settles O45: the old flags and a mask, whose one bit is that of the unit. -/
theorem errorFlagsAreSticky : Obligations.ErrorFlagsAreSticky := by
  intro i s t h
  rcases exec_errFlags h with hclear | ⟨hi, flags, ht, hf⟩
  · exact .inl hclear
  · refine .inr ⟨hi, fun k hk => by simp [ht, hk], ?_⟩
    simp only [State.encErr, State.rxOvf, State.badOp, ht, BitVec.getLsbD_or]
    rcases hf with rfl | ⟨rfl, hu⟩ | ⟨rfl, hu⟩ | ⟨rfl, hu⟩
    · simp
    · simp [hu, encErrBit]
    · simp [hu, rxOvfBit]
    · simp [hu, badOpBit]

/-! ### E_CAUSE, the histories, the result registers -/

/-- Settles O47: only the trap entry and the clears write `E_CAUSE`. -/
theorem causeRegisterFollowsRaises : Obligations.CauseRegisterFollowsRaises := by
  intro i s t h hne
  cases exec_wrote h with
  | raised c n => exact .inr ⟨c, n, rfl, rfl, rfl⟩
  | cleared hi => exact .inl ⟨by rcases hi with rfl | rfl <;> simp, rfl⟩
  | srst hi => exact .inl ⟨by simp [hi], rfl⟩
  | reset hi => exact .inl ⟨by simp [hi], rfl⟩
  | rxd | sent | crcg | checked => exact absurd rfl hne

/-- Settles O48: TXF appends a whole frame that passes every check, RXD appends candidates, and nothing else
but RESET writes a history. -/
theorem historiesAreAppendOnly : Obligations.HistoriesAreAppendOnly := by
  intro i s t hne h
  cases exec_wrote h with
  | rxd st buf found flags answers hu => exact ⟨[], found, by simp [hu]⟩
  | sent frame hu hok => exact ⟨frame, [], by simp [hu, hok]⟩
  | reset hi => exact absurd hi hne
  | raised | crcg | checked | cleared | srst => exact ⟨[], [], by simp [clearErrors, softReset]⟩

/-- Settles O49: every other instruction leaves the result registers as they are. -/
theorem onlyChecksWriteTheResultRegisters : Obligations.OnlyChecksWriteTheResultRegisters := by
  intro i s t h hne
  cases exec_wrote h with
  | checked regs answers seen hi => exact hi.imp_right fun h => by simp [h]
  | srst hi => exact .inr (by simp [hi])
  | reset hi => exact .inr (by simp [hi])
  | rxd | raised | sent | crcg | cleared => exact absurd rfl hne

/-! ### Steps -/

/-- Settles O53: `step` on a non-empty queue, whose head decodes. -/
theorem stepRunsTheDecodedInstruction : Obligations.StepRunsTheDecodedInstruction := by
  intro s a later i hq hd
  simp only [step, hq, hd]

/-- Settles O54: `step` on an empty queue. -/
theorem blockWaitsForTheNextOperation : Obligations.BlockWaitsForTheNextOperation := by
  intro s hq
  simp only [step, hq]

end Sys2Proof.Machine
end

section
/-!
PROOFS. Noninterference: an operation respects a relation when it takes related states to related states.
`crc` (outside CRCG) and `ERRFLAGS` are hidden from an instruction, because its operation respects "equal but
for that register"; what the host sees of RXD hides the content of `rx_buf`.
-/

namespace Sys2Proof.Machine

/-! ### Operations that respect a relation -/

/-- `op` takes states that `R` relates to states that `R` relates. -/
def Respects (R : State → State → Prop) (op : State → State) : Prop :=
  ∀ ⦃s u : State⦄, R s u → R (op s) (op u)

section
variable {R : State → State → Prop}

theorem Respects.comp {f g : State → State} (hg : Respects R g) (hf : Respects R f) :
    Respects R (fun s => g (f s)) :=
  fun _ _ h => hg (hf h)

theorem Respects.foldl {α : Type} {f : State → α → State} (hf : ∀ x, Respects R (fun s => f s x))
    (xs : List α) : Respects R (fun s => xs.foldl f s) := by
  induction xs with
  | nil => exact fun _ _ h => h
  | cons x xs ih => exact ih.comp (hf x)

theorem Respects.rxBytes (hb : ∀ b, Respects R (rxByte b)) (bs : List Byte) : Respects R (rxBytes bs) :=
  .foldl hb bs

theorem Respects.splitBuffer (hb : ∀ b, Respects R (rxByte b)) (hf : Respects R rxFlush) (bs : List Byte) :
    Respects R (splitBuffer bs) :=
  hf.comp ((Respects.rxBytes hb bs).comp hf)

theorem Respects.crcBlock (hc : Respects R crcClear) (hu : ∀ b, Respects R (crcUpdate b))
    (hr : Respects R crcRead) (bs : List Byte) : Respects R (crcBlock bs) :=
  hr.comp ((Respects.foldl hu bs).comp hc)

end

/-! ### The operations of the instructions -/

/-- The operations of the instructions outside CRCG, the two resets apart. -/
inductive OtherOp : (State → State) → Prop
  | rxBytes (bs : List Byte) : OtherOp (rxBytes bs)
  | rxFlush : OtherOp rxFlush
  | splitBuffer (bs : List Byte) : OtherOp (splitBuffer bs)
  | encodeFrame (dst src fn payload : List Byte) : OtherOp (encodeFrame dst src fn payload)
  | raise (c : Cause) (n : Nat) : OtherOp (raise c n)
  | verifyFrame (f : List Byte) : OtherOp (verifyFrame f)
  | parseFrame (f : List Byte) : OtherOp (parseFrame f)
  | checkAll : OtherOp checkAll
  | clearErrors : OtherOp clearErrors

/-- The operations of CRCG. -/
inductive CrcgOp : (State → State) → Prop
  | crcClear : CrcgOp crcClear
  | crcUpdate (b : Byte) : CrcgOp (crcUpdate b)
  | crcRead : CrcgOp crcRead
  | crcBlock (bs : List Byte) : CrcgOp (crcBlock bs)

/-- An instruction outside CRCG, no reset, is one of those operations, in every state the same one. -/
theorem exec_otherOp {i : Instr} (hu : unitOf i ≠ some .crcg) (hsrst : i ≠ .srst) (hreset : i ≠ .reset) :
    ∃ op, OtherOp op ∧ ∀ s, exec i s = .next (op s) := by
  cases i with
  | crcClr | crcUpd | crcRd | crcBlk => exact absurd rfl hu
  | srst => exact absurd rfl hsrst
  | reset => exact absurd rfl hreset
  | enc dst src fn payload | causeDstLen dst src fn payload | causeSrcLen dst src fn payload
  | causeFnLen dst src fn payload | causePayloadLen dst src fn payload =>
    exact ⟨_, .encodeFrame dst src fn payload, fun _ => rfl⟩
  | unassignedOp op | causeBadOp op => exact ⟨_, .raise .badOp op.toNat, fun _ => rfl⟩
  | verify f => exact ⟨_, .verifyFrame f, fun _ => rfl⟩
  | parse f => exact ⟨_, .parseFrame f, fun _ => rfl⟩
  | checkAll => exact ⟨_, .checkAll, fun _ => rfl⟩
  | clrErr | causeNone => exact ⟨_, .clearErrors, fun _ => rfl⟩
  | rxFlush => exact ⟨_, .rxFlush, fun _ => rfl⟩
  | split bs => exact ⟨_, .splitBuffer bs, fun _ => rfl⟩
  | rxByte b | dataByte b => exact ⟨_, .rxBytes [b], fun _ => rfl⟩
  | frameHead lenLo lenHi src0 src1 dst0 dst1 fn =>
    exact ⟨_, .rxBytes [Config.startMark, lenLo, lenHi, src0, src1, dst0, dst1, fn], fun _ => rfl⟩
  | frameTail crcHi crcLo => exact ⟨_, .rxBytes [crcHi, crcLo, Config.endMark], fun _ => rfl⟩
  | startByte => exact ⟨_, .rxBytes [Config.startMark], fun _ => rfl⟩
  | endByte => exact ⟨_, .rxBytes [Config.endMark], fun _ => rfl⟩
  | fnWrite => exact ⟨_, .rxBytes [Config.fnWrite], fun _ => rfl⟩
  | fnRead => exact ⟨_, .rxBytes [Config.fnRead], fun _ => rfl⟩
  | ackA9 => exact ⟨_, .rxBytes [Config.ackA9], fun _ => rfl⟩
  | ackC0 => exact ⟨_, .rxBytes [Config.ackC0], fun _ => rfl⟩

/-- An instruction of CRCG is one of those operations, in every state the same one. -/
theorem exec_crcgOp {i : Instr} (hu : unitOf i = some .crcg) :
    ∃ op, CrcgOp op ∧ ∀ s, exec i s = .next (op s) := by
  cases i with
  | crcClr => exact ⟨_, .crcClear, fun _ => rfl⟩
  | crcUpd b => exact ⟨_, .crcUpdate b, fun _ => rfl⟩
  | crcRd => exact ⟨_, .crcRead, fun _ => rfl⟩
  | crcBlk bs => exact ⟨_, .crcBlock bs, fun _ => rfl⟩
  | _ => cases hu

/-! ### Equal but for `crc` and `ERRFLAGS` -/

/-- `u` is `s` with another `crc`, which `C` relates to that of `s`, and other `ERRFLAGS`, related by `F`. -/
def EqualBut (C : Half → Half → Prop) (F : BitVec 4 → BitVec 4 → Prop) (s u : State) : Prop :=
  ∃ c flags, C s.crc c ∧ F s.errFlags flags ∧ u = { s with crc := c, errFlags := flags }

section
variable {C : Half → Half → Prop} {F : BitVec 4 → BitVec 4 → Prop}
  (hset : ∀ f g mask, F f g → F (f ||| mask) (g ||| mask))

include hset in
theorem equalBut_rxByte (b : Byte) : Respects (EqualBut C F) (rxByte b) := by
  rintro s _ ⟨c, flags, hc, hf, rfl⟩
  cases hst : s.rxState with
  | hunt | drop =>
    simp only [rxByte, hst]
    split_ifs <;> exact ⟨c, flags, hc, hf, by simp [hst]⟩
  | collect =>
    simp only [rxByte, hst]
    cases roomGone s.params.candMax s.rxBuf.length with
    | true => exact ⟨c, _, hc, hset _ _ _ hf, rfl⟩
    | false =>
      simp only [Bool.false_eq_true, if_false]
      split_ifs <;> exact ⟨c, flags, hc, hf, rfl⟩

theorem equalBut_rxFlush : Respects (EqualBut C F) rxFlush := by
  rintro s _ ⟨c, flags, hc, hf, rfl⟩
  exact ⟨c, flags, hc, hf, rfl⟩

include hset in
theorem equalBut_raise (cause : Cause) (n : Nat) : Respects (EqualBut C F) (raise cause n) := by
  rintro s _ ⟨c, flags, hc, hf, rfl⟩
  exact ⟨c, _, hc, hset _ _ _ hf, rfl⟩

include hset in
theorem equalBut_encodeFrame (dst src fn payload : List Byte) :
    Respects (EqualBut C F) (encodeFrame dst src fn payload) := by
  rintro s _ ⟨c, flags, hc, hf, rfl⟩
  simp only [encodeFrame]
  cases encFailure s.params dst src fn payload with
  | none => exact ⟨c, flags, hc, hf, rfl⟩
  | some failure => exact equalBut_raise hset _ _ ⟨c, flags, hc, hf, rfl⟩

theorem equalBut_checkAll : Respects (EqualBut C F) checkAll := by
  rintro s _ ⟨c, flags, hc, hf, rfl⟩
  simp only [checkAll, State.newCandidates, foldl_verifyFrame]
  exact ⟨c, flags, hc, hf, rfl⟩

include hset in
/-- Outside CRCG nothing depends on `crc` or `ERRFLAGS`. -/
theorem equalBut_otherOp (hclear : F 0 0) {op : State → State} (h : OtherOp op) :
    Respects (EqualBut C F) op := by
  cases h with
  | rxBytes bs => exact .rxBytes (equalBut_rxByte hset) bs
  | splitBuffer bs => exact .splitBuffer (equalBut_rxByte hset) equalBut_rxFlush bs
  | encodeFrame dst src fn payload => exact equalBut_encodeFrame hset dst src fn payload
  | raise cause n => exact equalBut_raise hset cause n
  | rxFlush => exact equalBut_rxFlush
  | checkAll => exact equalBut_checkAll
  | verifyFrame | parseFrame =>
    rintro s _ ⟨c, flags, hc, hf, rfl⟩
    exact ⟨c, flags, hc, hf, rfl⟩
  | clearErrors =>
    rintro s _ ⟨c, flags, hc, hf, rfl⟩
    exact ⟨c, 0, hc, hclear, rfl⟩

/-- CRCG does not depend on `ERRFLAGS`. -/
theorem equalBut_crcgOp {op : State → State} (h : CrcgOp op) : Respects (EqualBut Eq F) op := by
  have hclr : Respects (EqualBut Eq F) crcClear := by
    rintro s _ ⟨_, flags, rfl, hf, rfl⟩
    exact ⟨_, flags, rfl, hf, rfl⟩
  have hupd : ∀ b, Respects (EqualBut Eq F) (crcUpdate b) := by
    rintro b s _ ⟨_, flags, rfl, hf, rfl⟩
    exact ⟨_, flags, rfl, hf, rfl⟩
  have hrd : Respects (EqualBut Eq F) crcRead := by
    rintro s _ ⟨_, flags, rfl, hf, rfl⟩
    exact ⟨_, flags, rfl, hf, rfl⟩
  cases h with
  | crcClear => exact hclr
  | crcUpdate b => exact hupd b
  | crcRead => exact hrd
  | crcBlock bs => exact .crcBlock hclr hupd hrd bs

end

/-- Settles O11: the operations outside CRCG take states equal but for `crc` to such states. -/
theorem otherUnitsNeverTouchCrc : Obligations.OtherUnitsNeverTouchCrc := by
  intro i s t c hu hsrst hreset h
  obtain ⟨op, hop, hexec⟩ := exec_otherOp hu hsrst hreset
  obtain rfl : op s = t := by simpa [hexec] using h
  have hrel : EqualBut (fun _ x => x = c) Eq s { s with crc := c } := ⟨c, s.errFlags, rfl, rfl, rfl⟩
  obtain ⟨_, _, rfl, rfl, he⟩ := equalBut_otherOp (fun _ _ _ hfg => by rw [hfg]) rfl hop hrel
  rw [hexec, he]

/-- Every instruction takes states equal but for `ERRFLAGS` to such states (R28, R197). -/
theorem exec_equalBut_errFlags (i : Instr) : ∃ op, (∀ s, exec i s = .next (op s)) ∧
    Respects (EqualBut Eq fun _ _ => True) op := by
  by_cases hsrst : i = .srst
  · subst hsrst
    refine ⟨softReset, fun _ => rfl, ?_⟩
    rintro s _ ⟨_, flags, rfl, -, rfl⟩
    exact ⟨_, 0, rfl, trivial, rfl⟩
  by_cases hreset : i = .reset
  · subst hreset
    refine ⟨hardReset, fun _ => rfl, ?_⟩
    rintro s _ ⟨_, flags, rfl, -, rfl⟩
    exact ⟨_, 0, rfl, trivial, rfl⟩
  by_cases hu : unitOf i = some .crcg
  · obtain ⟨op, hop, hexec⟩ := exec_crcgOp hu
    exact ⟨op, hexec, equalBut_crcgOp hop⟩
  · obtain ⟨op, hop, hexec⟩ := exec_otherOp hu hsrst hreset
    exact ⟨op, hexec, equalBut_otherOp (fun _ _ _ _ => trivial) trivial hop⟩

/-- Settles O46: the relation above, for any two values of `ERRFLAGS`. -/
theorem errorFlagsDoNotGate : Obligations.ErrorFlagsDoNotGate := by
  intro i s t flags h
  obtain ⟨op, hexec, hop⟩ := exec_equalBut_errFlags i
  obtain rfl : op s = t := by simpa [hexec] using h
  have hrel : EqualBut Eq (fun _ _ => True) s { s with errFlags := flags } :=
    ⟨s.crc, flags, rfl, trivial, rfl⟩
  obtain ⟨_, flags', rfl, -, he⟩ := hop hrel
  exact ⟨flags', by rw [hexec, he]⟩

/-! ### The content of `rx_buf` -/

/-- `u` is `s` with other bytes, equally many, in `rx_buf`. -/
def WithBuffer (s u : State) : Prop := ∃ buf, buf.length = s.rxBuf.length ∧ u = { s with rxBuf := buf }

/-- The host sees how many bytes `rx_buf` holds, not which (R26). -/
theorem WithBuffer.hostView_eq {s u : State} (h : WithBuffer s u) : s.hostView = u.hostView := by
  obtain ⟨buf, hlen, rfl⟩ := h
  simp [State.hostView, State.rxCnt, hlen]

/-- Until the end byte, the buffer's length decides which row of R142 applies. -/
theorem withBuffer_rxByte {b : Byte} (hb : b ≠ Config.endMark) : Respects WithBuffer (rxByte b) := by
  rintro s _ ⟨buf, hlen, rfl⟩
  cases hst : s.rxState with
  | hunt =>
    simp only [rxByte, hst]
    split_ifs
    · exact ⟨[Config.startMark], rfl, rfl⟩
    · exact ⟨buf, hlen, by simp [hst]⟩
  | collect =>
    simp only [rxByte, hst, hlen, if_neg hb]
    split_ifs
    · exact ⟨[], rfl, rfl⟩
    · exact ⟨buf ++ [b], by simp [hlen], rfl⟩
  | drop =>
    simp only [rxByte, hst, if_neg hb]
    exact ⟨buf, hlen, by simp [hst]⟩

/-- Settles O29: a byte other than 0x16 keeps states equal but for the content of `rx_buf`. -/
theorem bufferContentIsHiddenUntilTheEnd : Obligations.BufferContentIsHiddenUntilTheEnd := by
  intro s buf b hlen hb
  have hrel : WithBuffer s { s with rxBuf := buf } := ⟨buf, hlen, rfl⟩
  exact ⟨_, _, exec_rxByte s b, exec_rxByte _ b, (withBuffer_rxByte hb hrel).hostView_eq⟩

end Sys2Proof.Machine
end

section
/-!
PROOFS. Checks depend on their operand and the parameters alone (R57), and instructions of different units
commute (R61): what an instruction does follows from what its unit sees of the state, and what it writes is
what its unit owns.
-/

namespace Sys2Proof.Machine

/-! ### The checker -/

/-- VERIFY and PARSE write the registers of `fchk` and give an answer made of those registers. -/
theorem exec_check {i : Instr} {f : List Byte} (hi : i = .verify f ∨ i = .parse f) :
    ∃ answer : CheckRegs → Answer, ∀ s, exec i s =
      .next { s with chk := fchk s.params f, rsp := s.rsp ++ [answer (fchk s.params f)] } := by
  rcases hi with rfl | rfl
  · exact ⟨fun c => .okVerdict c.ok, fun _ => rfl⟩
  · exact ⟨fun c => .okParse (parseAnswer c), fun _ => rfl⟩

/-- Settles O36: nothing of the state but the parameters enters the registers or the answer. -/
theorem checksDependOnTheOperandAlone : Obligations.ChecksDependOnTheOperandAlone := by
  intro s t f i hi hparams
  obtain ⟨answer, hexec⟩ := exec_check hi
  exact ⟨fchk s.params f, answer (fchk s.params f), hexec s, by rw [hexec t, hparams], by simp [hexec]⟩

/-! ### What a unit sees and what it owns -/

/-- What unit `u` makes of a value that belongs to `owner`: the owner applies `write` to it, and every other
unit leaves it. -/
def UnitName.update {α : Type} (u owner : UnitName) (write : α → α) (x : α) : α :=
  if u = owner then write x else x

@[simp] theorem UnitName.update_self {α : Type} (u : UnitName) (write : α → α) (x : α) :
    u.update u write x = write x := if_pos rfl

@[simp] theorem UnitName.update_of_ne {α : Type} {u owner : UnitName} (h : u ≠ owner) (write : α → α)
    (x : α) : u.update owner write x = x := if_neg h

/-- Different units write different values, and so in either order. -/
theorem UnitName.update_comm {α : Type} {u v : UnitName} (h : u ≠ v) (owner : UnitName)
    (f g : α → α) (x : α) : v.update owner g (u.update owner f x) = u.update owner f (v.update owner g x) := by
  by_cases hu : u = owner
  · have hv : v ≠ owner := fun hv => h (hu.trans hv.symm)
    simp [hv]
  · simp [hu]

/-- What its owner sees of a value, no other unit changes. -/
theorem UnitName.update_const_update {α : Type} {u v : UnitName} (h : u ≠ v) (owner : UnitName)
    (f : α → α) (x y : α) :
    v.update owner (fun _ => u.update owner f x) y = v.update owner (fun _ => x) y := by
  by_cases hv : v = owner
  · simp [show u ≠ owner from fun hu => h (hu.trans hv.symm)]
  · simp [hv]

/-- What unit `u` reads of a state: the parameters and its own registers, everything else as after reset. -/
def State.seenBy (u : UnitName) (s : State) : State :=
  { State.reset with
    params := s.params
    crc := u.update .crcg (fun _ => s.crc) State.reset.crc
    rxState := u.update .rxd (fun _ => s.rxState) State.reset.rxState
    rxBuf := u.update .rxd (fun _ => s.rxBuf) State.reset.rxBuf
    chk := u.update .fchk (fun _ => s.chk) State.reset.chk }

/-- `s` after unit `u` did what takes `s.seenBy u` to `t`: the unit's registers are those of `t`, the flags
of `t` are set too, and what `t` has sent, found and answered comes after what `s` has. -/
def State.absorb (u : UnitName) (s t : State) : State :=
  { s with
    crc := u.update .crcg (fun _ => t.crc) s.crc
    rxState := u.update .rxd (fun _ => t.rxState) s.rxState
    rxBuf := u.update .rxd (fun _ => t.rxBuf) s.rxBuf
    chk := u.update .fchk (fun _ => t.chk) s.chk
    errFlags := s.errFlags ||| t.errFlags
    eCause := if t.eCause = noCause then s.eCause else t.eCause
    txOut := u.update .txf (· ++ t.txOut) s.txOut
    candOut := u.update .rxd (· ++ t.candOut) s.candOut
    rsp := s.rsp ++ t.rsp }

section
variable {u v : UnitName} {s t t' : State}

/-- No unit changes what another one sees. -/
theorem State.seenBy_absorb_of_ne (h : u ≠ v) : (s.absorb u t).seenBy v = s.seenBy v := by
  simp only [State.seenBy, State.absorb, UnitName.update_const_update h]

/-- A unit sees its own registers as it left them. -/
theorem State.seenBy_absorb (ht : t.params = s.params) : (s.absorb u t).seenBy u = t.seenBy u := by
  cases u <;> simp [State.seenBy, State.absorb, ht]

theorem State.absorb_seenBy : s.absorb u (s.seenBy u) = s := by
  cases u <;> simp [State.seenBy, State.absorb, State.reset, noCause]

theorem State.absorb_absorb : (s.absorb u t).absorb u t' = s.absorb u (t.absorb u t') := by
  cases u <;> by_cases h : t'.eCause = noCause <;> simp [State.absorb, BitVec.or_assoc, h]

/-- What two units did joins in either order, but for `E_CAUSE` and the order of the answers. -/
theorem State.absorb_comm (h : u ≠ v) (c : Byte) (answers : List Answer) :
    { (s.absorb u t).absorb v t' with eCause := c, rsp := answers } =
      { (s.absorb v t').absorb u t with eCause := c, rsp := answers } := by
  simp only [State.absorb, UnitName.update_comm h, BitVec.or_assoc, BitVec.or_comm t.errFlags]

end

/-! ### Operations that act on one unit -/

/-- `op` does to every state what it does to what unit `u` sees of it. -/
def ActsOn (u : UnitName) (op : State → State) : Prop := ∀ s, op s = s.absorb u (op (s.seenBy u))

section
variable {u v : UnitName} {f g : State → State}

theorem ActsOn.params (hf : ActsOn u f) (s : State) : (f s).params = s.params := by rw [hf s]; rfl

theorem ActsOn.comp (hg : ActsOn u g) (hf : ActsOn u f) : ActsOn u (fun s => g (f s)) := by
  intro s
  have hparams : (f (s.seenBy u)).params = s.params := hf.params _
  calc g (f s)
      = (f s).absorb u (g ((f s).seenBy u)) := hg _
    _ = (s.absorb u (f (s.seenBy u))).absorb u (g ((f (s.seenBy u)).seenBy u)) := by
      rw [hf s, State.seenBy_absorb hparams]
    _ = s.absorb u (g (f (s.seenBy u))) := by rw [State.absorb_absorb, ← hg]

theorem ActsOn.foldl {α : Type} {f : State → α → State} (hf : ∀ x, ActsOn u (fun s => f s x))
    (xs : List α) : ActsOn u (fun s => xs.foldl f s) := by
  induction xs with
  | nil => exact fun _ => State.absorb_seenBy.symm
  | cons x xs ih => exact ih.comp (hf x)

/-- An operation on one unit after one on another joins what each does on its own. -/
theorem ActsOn.apply_apply (hg : ActsOn v g) (hf : ActsOn u f) (h : u ≠ v) (s : State) :
    g (f s) = (s.absorb u (f (s.seenBy u))).absorb v (g (s.seenBy v)) := by
  rw [hg (f s), hf s, State.seenBy_absorb_of_ne h]

end

/-! ### The operations of the units -/

/-- CRCG leaves another `crc`, and answers. -/
theorem State.absorb_crcg (s : State) (c : Half) (answers : List Answer) :
    s.absorb .crcg { s.seenBy .crcg with crc := c, rsp := answers } =
      { s with crc := c, rsp := s.rsp ++ answers } := by
  simp [State.absorb, State.seenBy, State.reset, noCause]

theorem actsOn_crcClear : ActsOn .crcg crcClear := fun s => (s.absorb_crcg _ _).symm

theorem actsOn_crcUpdate (b : Byte) : ActsOn .crcg (crcUpdate b) := fun s => (s.absorb_crcg _ _).symm

theorem actsOn_crcRead : ActsOn .crcg crcRead := fun s => (s.absorb_crcg _ _).symm

theorem actsOn_crcBlock (bs : List Byte) : ActsOn .crcg (crcBlock bs) :=
  actsOn_crcRead.comp ((ActsOn.foldl actsOn_crcUpdate bs).comp actsOn_crcClear)

/-- FCHK leaves other result registers, and answers. -/
theorem State.absorb_fchk (s : State) (c : CheckRegs) (answers : List Answer) :
    s.absorb .fchk { s.seenBy .fchk with chk := c, rsp := answers } =
      { s with chk := c, rsp := s.rsp ++ answers } := by
  simp [State.absorb, State.seenBy, State.reset, noCause]

theorem actsOn_verifyFrame (f : List Byte) : ActsOn .fchk (verifyFrame f) :=
  fun s => (s.absorb_fchk _ _).symm

theorem actsOn_parseFrame (f : List Byte) : ActsOn .fchk (parseFrame f) :=
  fun s => (s.absorb_fchk _ _).symm

theorem causeCode_ne_noCause (c : Cause) : c.code ≠ noCause := by cases c <;> decide

/-- The trap entry writes nothing that one unit owns, so it acts on whichever unit takes it (R196). -/
theorem actsOn_raise (u : UnitName) (c : Cause) (n : Nat) : ActsOn u (raise c n) := fun s => by
  cases u <;> simp [raise, respond, State.absorb, State.seenBy, State.reset, causeCode_ne_noCause c]

/-- ENC reads nothing but `PAYLOAD_MAX`, so the same test fails, or none. -/
theorem actsOn_encodeFrame (dst src fn payload : List Byte) :
    ActsOn .txf (encodeFrame dst src fn payload) := by
  intro s
  have hparams : (s.seenBy .txf).params = s.params := rfl
  simp only [encodeFrame, hparams]
  cases encFailure s.params dst src fn payload with
  | some failure => exact actsOn_raise _ _ _ s
  | none => simp [respond, State.absorb, State.seenBy, State.reset, noCause]

/-- RXD's state, buffer and `CAND_MAX` decide which row of R142 applies. -/
theorem actsOn_rxByte (b : Byte) : ActsOn .rxd (rxByte b) := by
  intro s
  have hparams : (s.seenBy .rxd).params = s.params := rfl
  have hstate : (s.seenBy .rxd).rxState = s.rxState := rfl
  have hbuf : (s.seenBy .rxd).rxBuf = s.rxBuf := rfl
  cases hst : s.rxState with
  | hunt | drop =>
    simp only [rxByte, hstate, hst]
    split_ifs
    · simp [State.absorb, State.seenBy, State.reset, noCause]
    · exact State.absorb_seenBy.symm
  | collect =>
    simp only [rxByte, hparams, hstate, hbuf, hst]
    split_ifs <;> simp [State.absorb, State.seenBy, State.reset, noCause, hst]

theorem actsOn_rxBytes (bs : List Byte) : ActsOn .rxd (rxBytes bs) := .foldl actsOn_rxByte bs

theorem actsOn_rxFlush : ActsOn .rxd rxFlush := fun s => by
  simp [rxFlush, respond, State.absorb, State.seenBy, State.reset, noCause]

theorem actsOn_splitBuffer (bs : List Byte) : ActsOn .rxd (splitBuffer bs) :=
  actsOn_rxFlush.comp ((actsOn_rxBytes bs).comp actsOn_rxFlush)

/-! ### The instructions -/

/-- An instruction of a unit acts on that unit (R61). -/
theorem exec_actsOn {i : Instr} {u : UnitName} (hu : unitOf i = some u) :
    ∃ op, ActsOn u op ∧ ∀ s, exec i s = .next (op s) := by
  cases i <;> cases hu
  case crcClr => exact ⟨_, actsOn_crcClear, fun _ => rfl⟩
  case crcUpd b => exact ⟨_, actsOn_crcUpdate b, fun _ => rfl⟩
  case crcRd => exact ⟨_, actsOn_crcRead, fun _ => rfl⟩
  case crcBlk bs => exact ⟨_, actsOn_crcBlock bs, fun _ => rfl⟩
  case verify f => exact ⟨_, actsOn_verifyFrame f, fun _ => rfl⟩
  case parse f => exact ⟨_, actsOn_parseFrame f, fun _ => rfl⟩
  case unassignedOp | causeBadOp => exact ⟨_, actsOn_raise _ _ _, fun _ => rfl⟩
  case enc | causeDstLen | causeSrcLen | causeFnLen | causePayloadLen =>
    exact ⟨_, actsOn_encodeFrame _ _ _ _, fun _ => rfl⟩
  case rxFlush => exact ⟨_, actsOn_rxFlush, fun _ => rfl⟩
  case split bs => exact ⟨_, actsOn_splitBuffer bs, fun _ => rfl⟩
  case frameHead | frameTail => exact ⟨_, actsOn_rxBytes _, fun _ => rfl⟩
  case rxByte | dataByte | startByte | endByte | fnWrite | fnRead | ackA9 | ackC0 =>
    exact ⟨_, actsOn_rxByte _, fun _ => rfl⟩

/-- Settles O50: each instruction does to the state what it does to what its unit sees, which the other one
does not change; and what the two units own is written in either order. -/
theorem differentUnitsCommute : Obligations.DifferentUnitsCommute := by
  intro i j u v s hi hj hne
  obtain ⟨f, hf, hexeci⟩ := exec_actsOn hi
  obtain ⟨g, hg, hexecj⟩ := exec_actsOn hj
  refine ⟨f s, g (f s), g s, f (g s), (f (s.seenBy u)).rsp, (g (s.seenBy v)).rsp,
    hexeci s, hexecj _, hexecj s, hexeci _, ?_, ?_, ?_, ?_, ?_⟩
  · rw [hf s]; rfl
  · rw [hg s]; rfl
  · rw [hg.apply_apply hf hne]; rfl
  · rw [hf.apply_apply hg hne.symm]; rfl
  · rw [hg.apply_apply hf hne, hf.apply_apply hg hne.symm]
    exact State.absorb_comm hne _ _

end Sys2Proof.Machine
end

section
/-!
PROOFS. The decoder and the encoder are inverse to each other, on well-formed instructions and on what decodes
(R78 to R80, R198); what `step` makes of an unassigned code and of an overlong operand.
-/

namespace Sys2Proof

/-! ### Encoding, then decoding -/

/-- The decoder reads a transaction and checks what it read. -/
theorem decode_eq_ok_iff {p : Params} {a : Arrival} {i : Instr} :
    decode p a = .ok i ↔ decodeRaw a = .ok i ∧ i.wellFormed p = true := by
  unfold decode
  cases decodeRaw a with
  | error e => simp
  | ok j =>
    dsimp only
    split_ifs with hw
    · simpa using fun h : j = i => h ▸ hw
    · simpa using fun h : j = i => h ▸ Bool.eq_false_of_not_eq_true hw

theorem decodeOp_of_not_mem {code : Byte} (h : code ∉ assignedOps) (operands : List Operand) :
    decodeOp code operands = .ok (.unassignedOp code) := by
  simp only [decodeOp, opName?_eq_none h]

theorem unassignedOp_wellFormed_iff {p : Params} {op : Byte} :
    (Instr.unassignedOp op).wellFormed p = true ↔ op ∉ assignedOps := by
  simp [Instr.wellFormed]

theorem dataByte_wellFormed_iff {p : Params} {b : Byte} :
    (Instr.dataByte b).wellFormed p = true ↔ b ≠ Config.startMark ∧ b ≠ Config.endMark := by
  simp [Instr.wellFormed]

/-- Of the well-formedness check, reading back needs only that an unassigned code is none of the ten and
that a DATA byte is no mark. -/
theorem decodeRaw_encode {p : Params} {i : Instr} (h : i.wellFormed p = true) :
    decodeRaw (encode i) = .ok i := by
  cases i with
  | unassignedOp op => exact decodeOp_of_not_mem (unassignedOp_wellFormed_iff.mp h) []
  | dataByte b =>
    obtain ⟨hstart, hend⟩ := dataByte_wellFormed_iff.mp h
    simp [encode, decodeRaw, decodeByteClass, hstart, hend]
  | _ => rfl

/-- Settles O57: reading back gives the instruction, which passes the check again. -/
theorem decodeEncodeRoundTrip : Obligations.DecodeEncodeRoundTrip := fun _ _ h =>
  decode_eq_ok_iff.mpr ⟨decodeRaw_encode h, h⟩

/-- Settles O56: each word is what the encoder makes of its instruction. -/
theorem wordsDecodeToTheirInstructions : Obligations.WordsDecodeToTheirInstructions := by
  unfold Obligations.WordsDecodeToTheirInstructions
  intro p
  have read {a : Arrival} {i : Instr} (ha : encode i = a) (hw : i.wellFormed p = true) : decode p a = .ok i :=
    ha ▸ decodeEncodeRoundTrip p i hw
  and_intros <;> exact read rfl rfl

/-! ### Decoding, then encoding, one format after another -/

section
variable {code b : Byte} {operands : List Operand} {i : Instr}

theorem encode_of_decodeOp (h : decodeOp code operands = .ok i) :
    encode i = .op code operands ∨ i = .unassignedOp code := by
  unfold decodeOp at h
  split at h <;> cases h
  case h_1 => exact .inr rfl
  all_goals
    rename_i hname
    rw [code_of_opName? hname]
    exact .inl rfl

theorem encode_of_decodePseudo {name : Pseudo} (h : decodePseudo name operands = .ok i) :
    encode i = .pseudo name operands := by
  unfold decodePseudo at h
  split at h <;> cases h <;> rfl

theorem encode_of_decodeFrame {bytes : List Byte} (h : decodeFrame bytes = .ok i) :
    encode i = .frame bytes := by
  unfold decodeFrame at h
  split at h
  · split at h <;> cases h
    rename_i hmark
    rw [hmark]; rfl
  · split at h <;> cases h
    rename_i hmark
    rw [hmark]; rfl
  · cases h

theorem encode_decodeByteClass : encode (decodeByteClass b) = .byteClass b := by
  unfold decodeByteClass
  split_ifs with hstart hend
  · rw [hstart]; rfl
  · rw [hend]; rfl
  · rfl

theorem encode_of_decodeFnCode (h : decodeFnCode b = .ok i) : encode i = .fnCode b := by
  unfold decodeFnCode at h
  split_ifs at h with hwrite hread <;> cases h
  · rw [hwrite]; rfl
  · rw [hread]; rfl

theorem encode_of_decodeAckValue (h : decodeAckValue b = .ok i) : encode i = .ackValue b := by
  unfold decodeAckValue at h
  split_ifs at h with ha9 hc0 <;> cases h
  · rw [ha9]; rfl
  · rw [hc0]; rfl

theorem encode_of_decodeCause (h : decodeCause code operands = .ok i) :
    encode i = .cause code operands := by
  unfold decodeCause at h
  split_ifs at h with hnone
  · split at h <;> cases h
    rw [hnone]; rfl
  · split at h <;> cases h
    all_goals
      rename_i hcause
      rw [code_of_cause? hcause]
      rfl

end

/-- What reads as an instruction is its transaction, an unassigned code apart (R198). -/
theorem encode_of_decodeRaw {a : Arrival} {i : Instr} (h : decodeRaw a = .ok i) :
    encode i = a ∨ ∃ code operands, a = .op code operands ∧ i = .unassignedOp code := by
  cases a with
  | op code operands =>
    exact (encode_of_decodeOp h).imp_right fun hi => ⟨code, operands, rfl, hi⟩
  | event => cases h; exact .inl rfl
  | pseudo name operands => exact .inl (encode_of_decodePseudo h)
  | frame bytes => exact .inl (encode_of_decodeFrame h)
  | byteClass b => cases h; exact .inl encode_decodeByteClass
  | fnCode b => exact .inl (encode_of_decodeFnCode h)
  | ackValue b => exact .inl (encode_of_decodeAckValue h)
  | cause code operands => exact .inl (encode_of_decodeCause h)

/-- Settles O58: format by format, each code is the code of what it was read as. -/
theorem decodedTransactionsAreWellFormed : Obligations.DecodedTransactionsAreWellFormed := by
  intro p a i h
  obtain ⟨hraw, hw⟩ := decode_eq_ok_iff.mp h
  refine ⟨hw, (encode_of_decodeRaw hraw).imp_right ?_⟩
  rintro ⟨code, operands, rfl, rfl⟩
  exact ⟨code, operands, rfl, rfl, unassignedOp_wellFormed_iff.mp hw⟩

/-! ### Unassigned codes and overlong operands -/

theorem decode_op_of_not_mem {code : Byte} (p : Params) (h : code ∉ assignedOps) (operands : List Operand) :
    decode p (.op code operands) = .ok (.unassignedOp code) :=
  decode_eq_ok_iff.mpr ⟨decodeOp_of_not_mem h operands, unassignedOp_wellFormed_iff.mpr h⟩

/-- An operand of VERIFY or PARSE is looked at for its length alone (R80). -/
theorem decode_check {code : Byte} (h : code = 0x30 ∨ code = 0x31) (p : Params) (f : List Byte) :
    ∃ i, decode p (.op code [.bytes f]) =
      if p.candMax.admits f.length then .ok i else .error .illFormed := by
  rcases h with rfl | rfl
  · exact ⟨.verify f, rfl⟩
  · exact ⟨.parse f, rfl⟩

end Sys2Proof

namespace Sys2Proof.Machine

/-- Settles O42: the code decodes to the row of the unassigned codes, whose meaning is the trap entry. -/
theorem unassignedCodesRaiseBadOp : Obligations.UnassignedCodesRaiseBadOp := by
  intro s code operands later hcode hq
  have hd := decode_op_of_not_mem s.params hcode operands
  rw [stepRunsTheDecodedInstruction s _ later _ hq hd]
  rfl

theorem admits_eq_false_iff (m : CandMax) (n : Nat) :
    m.admits n = false ↔ ∃ k h, m = .atMost k h ∧ k < n := by
  cases m with
  | unbounded => simp
  | atMost k hk => simp [hk]

/-- Settles O55: the operand is refused by its length, and what decodes is run, which refuses nothing. -/
theorem overlongOperandsAreRefused : Obligations.OverlongOperandsAreRefused := by
  intro s f code later hcode hq
  obtain ⟨i, hd⟩ := decode_check hcode s.params f
  rw [← admits_eq_false_iff]
  cases hadm : s.params.candMax.admits f.length with
  | true =>
    have hok : decode s.params (.op code [.bytes f]) = .ok i := by simpa [hadm] using hd
    obtain ⟨t, ht⟩ := exec_completes { s with arrivals := later } i
    rw [stepRunsTheDecodedInstruction s _ later i hq hok, ht]
    simp
  | false => simp [step, hq, hd, hadm]

end Sys2Proof.Machine
end

section
/-!
PROOFS. The layout of the frame ENC sends (R71), the rows of the table for bytes on the wire (R72, R76, R77),
and the core operations a row stands for (R83).
-/

namespace Sys2Proof.Machine

/-! ### The layout of a frame -/

section
variable (m l h s0 s1 d0 d1 fn : Byte) (pay : List Byte) (a b e : Byte)

/-- From index 8 on, a frame holds the payload, the CRC bytes and the mark (R71). -/
theorem getElem?_fieldsOf (k : Nat) :
    (fieldsOf m l h s0 s1 d0 d1 fn pay a b e)[k + 8]? = (pay ++ [a, b, e])[k]? := rfl

theorem slice_fieldsOf_middle :
    slice (fieldsOf m l h s0 s1 d0 d1 fn pay a b e) 1 (pay.length + 8) =
      l :: h :: s0 :: s1 :: d0 :: d1 :: fn :: pay := by
  rw [← middleOf_fieldsOf m l h s0 s1 d0 d1 fn pay a b e, middleOf, fieldsOf_length]
  rfl

end

/-- ENC of operands that pass its tests sends the frame of their fields (R122). -/
theorem encodeFrame_txOut (s : State) (x0 x1 y0 y1 z : Byte) {pay : List Byte}
    (hpay : pay.length ≤ s.params.payloadMax.val) :
    (encodeFrame [x0, x1] [y0, y1] [z] pay s).txOut = s.txOut ++ buildFrame [x0, x1] [y0, y1] [z] pay := by
  rw [encodeFrame, encFailure_eq_none rfl rfl rfl hpay]
  rfl

/-- Settles O14: the frame is made of its fields, and LEN, at most 65535, of its two bytes. -/
theorem encFrameHasTheLayout : Obligations.EncFrameHasTheLayout := by
  intro s a b c d e payload hpay
  have hmax := s.params.payloadMax.isLt
  have hlen : (BitVec.ofNat 16 (5 + payload.length)).toNat = 5 + payload.length :=
    Nat.mod_eq_of_lt (by omega)
  have hlo : lo8 (BitVec.ofNat 16 (5 + payload.length)) = BitVec.ofNat 8 (5 + payload.length) := by
    rw [lo8_eq_ofNat, hlen]
    exact BitVec.eq_of_toNat_eq (by simp)
  have hhi : hi8 (BitVec.ofNat 16 (5 + payload.length)) = BitVec.ofNat 8 ((5 + payload.length) / 256) := by
    rw [hi8_eq_ofNat, hlen]
  refine ⟨_, _, rfl, encodeFrame_txOut s a b c d e hpay, ?_⟩
  rw [buildFrame_eq_fieldsOf, hlo, hhi, Nat.add_comm 8, slice_fieldsOf_middle, slice_fieldsOf_payload]
  refine ⟨by simp [Nat.add_comm], rfl, rfl, rfl, rfl, rfl, rfl, rfl, rfl, rfl, ?_, ?_, ?_⟩
  · rw [getElem?_fieldsOf]; simp
  · rw [show 9 + payload.length = payload.length + 1 + 8 by omega, getElem?_fieldsOf]; simp
  · rw [show 10 + payload.length = payload.length + 2 + 8 by omega, getElem?_fieldsOf]; simp [Config.endMark]

/-! ### Bytes on the wire -/

/-- Settles O30: the rows of R142 for the two marks and for a byte that is neither. -/
theorem byteClassesActAsTheTableSays : Obligations.ByteClassesActAsTheTableSays := by
  refine ⟨fun p b => ?_, fun s => ⟨fun hst => ?_, fun hst hadm => ?_, fun hst => ?_⟩⟩
  · refine decode_eq_ok_iff.mpr ⟨rfl, ?_⟩
    split_ifs with hstart hend
    · rfl
    · rfl
    · exact dataByte_wellFormed_iff.mpr ⟨hstart, hend⟩
  · exact ⟨congrArg _ (rxByte_hunt_start hst),
      congrArg _ (rxByte_hunt_other hst startMark_ne_endMark.symm),
      fun b hb => congrArg _ (rxByte_hunt_other hst hb)⟩
  · have hroom := roomGone_of_admits_succ hadm
    exact ⟨congrArg _ (rxByte_collect_other hst hroom startMark_ne_endMark),
      congrArg _ (rxByte_collect_end hst hroom),
      fun b hb => congrArg _ (rxByte_collect_other hst hroom hb)⟩
  · exact ⟨congrArg _ (rxByte_drop_other hst startMark_ne_endMark),
      congrArg _ (rxByte_drop_end hst),
      fun b hb => congrArg _ (rxByte_drop_other hst hb)⟩

/-- Outside COLLECT a byte that is no mark is ignored (R76). -/
theorem rxByte_idle {s : State} (hst : s.rxState ≠ .collect) {b : Byte} (hstart : b ≠ Config.startMark)
    (hend : b ≠ Config.endMark) : rxByte b s = s := by
  cases h : s.rxState with
  | hunt => exact rxByte_hunt_other h hstart
  | collect => exact absurd h hst
  | drop => exact rxByte_drop_other h hend

/-- The rows of R77 are received bytes, none of them a mark (log 8). -/
theorem exec_carried {i : Instr} {b : Byte}
    (h : (i, b) ∈ [(Instr.fnWrite, 0x29#8), (.fnRead, 0x40#8), (.ackA9, 0xa9#8), (.ackC0, 0xc0#8)]) :
    (∀ s, exec i s = .next (rxByte b s)) ∧ b ≠ Config.startMark ∧ b ≠ Config.endMark := by
  simp only [List.mem_cons, Prod.mk.injEq, List.not_mem_nil, or_false] at h
  rcases h with ⟨rfl, rfl⟩ | ⟨rfl, rfl⟩ | ⟨rfl, rfl⟩ | ⟨rfl, rfl⟩ <;>
    exact ⟨fun _ => rfl, by decide, by decide⟩

/-- Settles O31: the four bytes are no marks, so they are ignored or appended. -/
theorem functionAndAckBytesAreCarried : Obligations.FunctionAndAckBytesAreCarried := by
  intro s i b hi
  obtain ⟨hexec, hstart, hend⟩ := exec_carried hi
  rw [hexec]
  exact ⟨fun hst => congrArg _ (rxByte_idle hst hstart hend),
    fun hst hadm => congrArg _ (rxByte_collect_other hst (roomGone_of_admits_succ hadm) hend)⟩

/-- Settles O32: bytes without an end byte are collected, eight of them under every `CAND_MAX`; bytes up to
the end byte finish the candidate. -/
theorem frameHeadOpensAndFrameTailCloses : Obligations.FrameHeadOpensAndFrameTailCloses := by
  refine ⟨fun s l h a b c d e hst hend => ?_, fun s hi lo hst hhi hlo hadm => ?_⟩
  · rw [exec_frameHead, rxBytes_cons, rxByte_hunt_start hst,
      rxBytes_collect_none hend rfl (admits_of_le_eleven _ (by simp)),
      if_pos (admits_of_le_eleven _ (by simp))]
    rfl
  · have htail : untilEnd [hi, lo, Config.endMark] = some ([hi, lo, Config.endMark], []) := by
      rw [untilEnd_cons_of_ne hhi, untilEnd_cons_of_ne hlo]; rfl
    rw [exec_frameTail, rxBytes_collect_some htail hst (admits_mono (Nat.le_add_right _ 3) hadm),
      rxBytes_nil, finishCandidate]
    exact congrArg _ (if_pos hadm)

/-! ### The core operations of a row -/

/-- Settles O37: the loop of CHECKALL over the new candidates. -/
theorem checkAllVerifiesNewCandidatesInOrder : Obligations.CheckAllVerifiesNewCandidatesInOrder := by
  intro s
  rw [exec_checkAll, checkAll, foldl_verifyFrame]
  rfl

/-- One instruction per element is the loop over the elements. -/
theorem runInstrs_map {α : Type} {f : α → Instr} {op : State → α → State}
    (hf : ∀ x s, exec (f x) s = .next (op s x)) (xs : List α) (s : State) :
    runInstrs (xs.map f) s = .next (xs.foldl op s) := by
  induction xs generalizing s with
  | nil => rfl
  | cons x xs ih =>
    rw [List.map_cons, runInstrs_cons_of_exec _ _ (hf x s), ih, List.foldl_cons]

/-- A loop with an instruction before it and one after it. -/
theorem runInstrs_bracket {is : List Instr} {first last : Instr} {s t u : State}
    (hfirst : exec first s = .next t) (his : runInstrs is t = .next u) :
    runInstrs ([first] ++ is ++ [last]) s = exec last u := by
  obtain ⟨v, hlast⟩ := exec_completes u last
  rw [List.append_assoc, List.singleton_append, runInstrs_cons_of_exec _ _ hfirst, runInstrs_append his,
    runInstrs_cons_of_exec _ _ hlast, hlast]
  rfl

/-- The core operations of a row are the row (R83, log 5 to 9); CHECKALL has its mark besides. -/
theorem runInstrs_coreOps {i : Instr} (hi : i ≠ .checkAll) (s : State) :
    runInstrs (coreOps i s) s = exec i s := by
  cases i with
  | checkAll => exact absurd rfl hi
  | crcBlk bs => exact runInstrs_bracket (exec_crcClr s) (runInstrs_map (fun _ _ => rfl) bs _)
  | split buf => exact runInstrs_bracket (exec_rxFlush s) (runInstrs_rxByte _ buf)
  | frameHead | frameTail => exact runInstrs_rxByte _ _
  | _ => rfl

/-- Settles O52: CHECKALL is the loop of VERIFY and the mark, every other row its core operations. -/
theorem tableRowsRunTheirCoreOperations : Obligations.TableRowsRunTheirCoreOperations := by
  intro i s
  by_cases hi : i = .checkAll
  · subst hi
    exact ⟨_, runInstrs_map (fun _ _ => rfl) s.newCandidates s, rfl⟩
  · obtain ⟨t, ht⟩ := exec_completes s i
    exact ⟨t, by rw [runInstrs_coreOps hi, ht], by rw [ht, if_neg hi]⟩

end Sys2Proof.Machine
end

section
/-!
PROOFS. The CRC generator (40_crc.md): the bit step in numbers, the byte step and the fold over a sequence,
what a sequence and its CRC determine of each other, and the remainder the CRC is.
-/

namespace Sys2Proof.Machine

/-! ### The operations of CRCG -/

/-- Settles O1: the meaning of CRC.CLR, with `INIT` = 0x0000. -/
theorem crcClrZeroesTheRegister : Obligations.CrcClrZeroesTheRegister :=
  ⟨fun _ => rfl, exec_crcClr⟩

/-- Settles O2: the meaning of CRC.UPD. -/
theorem crcUpdTakesOneByteStep : Obligations.CrcUpdTakesOneByteStep :=
  ⟨fun _ _ => rfl, fun s b => exec_crcUpd s b⟩

/-- Settles O3: the two bytes of the register are its quotient and its remainder by 256. -/
theorem crcRdAnswersHighByteFirst : Obligations.CrcRdAnswersHighByteFirst := by
  refine ⟨fun _ => rfl, fun s => ?_⟩
  rw [exec_crcRd, crcRead, hi8_eq_ofNat, lo8_eq_ofNat]
  rfl

/-! ### The bit step and the byte step -/

/-- The bit that a bit step shifts out, as a number (R101). -/
theorem toNat_getLsbD_15 (c : Half) : (c.getLsbD 15).toNat = c.toNat / 32768 := by
  have hc := c.isLt
  rw [BitVec.getLsbD, Nat.toNat_testBit, Nat.mod_eq_of_lt (by omega)]

theorem toNat_half_shiftLeft_one (c : Half) : (c <<< 1).toNat = 2 * c.toNat % 65536 := by
  rw [BitVec.toNat_shiftLeft, Nat.shiftLeft_eq, Nat.mul_comm]

/-- Settles O4: the feedback is 0 exactly when the bit shifted out is the data bit. -/
theorem crcBitStepShiftsAndFeedsBack : Obligations.CrcBitStepShiftsAndFeedsBack := by
  intro c d
  rw [← toNat_getLsbD_15, ← toNat_half_shiftLeft_one, crcBit]
  cases c.getLsbD 15 <;> cases d <;> simp [Config.poly]

/-- The software form feeds no data bits: it is a byte step with the byte 0x00 (R102). -/
theorem crcByteTop_eq_crcByte_zero (c : Half) (b : Byte) :
    crcByteTop c b = crcByte (c ^^^ (b.setWidth 16 <<< 8)) 0 := by
  simp only [crcByteTop, crcByte, crcShift_eq_crcBit, List.foldl_cons, List.foldl_nil]
  rfl

theorem crcByteTop_eq_crcByte (c : Half) (b : Byte) : crcByteTop c b = crcByte c b :=
  calc crcByteTop c b = crcByte (c ^^^ (b.setWidth 16 <<< 8)) (b ^^^ b) := by
        rw [crcByteTop_eq_crcByte_zero, BitVec.xor_self]; rfl
    _ = crcByte c b ^^^ crcByte (b.setWidth 16 <<< 8) b := crcByte_xor ..
    _ = crcByte c b := by rw [crcByte_own_top]; exact BitVec.xor_zero

/-- Settles O5: the fold over the bit numbers, and linearity for the software form. -/
theorem bothByteStepFormsAgree : Obligations.BothByteStepFormsAgree :=
  fun c b => ⟨rfl, crcByteTop_eq_crcByte c b⟩

/-! ### The CRC of a sequence -/

theorem crc16_append (s t : List Byte) : crc16 (s ++ t) = t.foldl crcByte (crc16 s) :=
  List.foldl_append

/-- Zero bytes leave the register at its initial value (R229). -/
theorem crc16_replicate_zero (k : Nat) : crc16 (List.replicate k 0x00) = 0x0000 := by
  induction k with
  | zero => rfl
  | succ k ih => rw [List.replicate_succ', crc16_append, ih]; exact crcByte_zero_zero

/-- Settles O9: CRC of an appended sequence, and of leading zero bytes. -/
theorem crc16FoldsAndIgnoresLeadingZeros : Obligations.Crc16FoldsAndIgnoresLeadingZeros := by
  refine ⟨rfl, crc16_append, fun k s => ?_⟩
  rw [crc16_append, crc16_replicate_zero]
  rfl

/-- Settles O10: the loop of CRC.UPD starts from the initial value and answers `Ok` for each byte. -/
theorem crcBlkAnswersTheCrc : Obligations.CrcBlkAnswersTheCrc := by
  intro s bs
  rw [exec_crcBlk, crcBlock, foldl_crcUpdate, List.replicate_succ]
  simp only [crcClear, crcRead, respond, crc16, List.append_assoc, List.cons_append, List.nil_append]

/-! ### Linearity and single bits -/

/-- Linearity of the fold over two sequences of equal length (R108). -/
theorem foldl_crcByte_xor {s t : List Byte} (h : s.length = t.length) (c c' : Half) :
    (List.zipWith (· ^^^ ·) s t).foldl crcByte (c ^^^ c') = s.foldl crcByte c ^^^ t.foldl crcByte c' := by
  induction s generalizing t c c' with
  | nil => obtain rfl := List.length_eq_zero_iff.mp h.symm; rfl
  | cons a s ih =>
    cases t with
    | nil => cases h
    | cons b t =>
      rw [List.zipWith_cons_cons, List.foldl_cons, crcByte_xor]
      exact ih (Nat.succ.inj h) _ _

/-- One changed byte changes the CRC. -/
theorem crc16_append_cons_inj {s t : List Byte} {b b' : Byte}
    (h : crc16 (s ++ b :: t) = crc16 (s ++ b' :: t)) : b = b' := by
  rw [crc16_append, crc16_append] at h
  exact crcByte_inj_byte (crcFold_inj_reg t h)

theorem xor_bit_ne_self (b : Byte) {k : Nat} (hk : k < 8) : b ^^^ (1#8 <<< k) ≠ b := by
  intro h
  have hbit : (b.getLsbD k ^^ (1#8 <<< k).getLsbD k) = b.getLsbD k := by rw [← BitVec.getLsbD_xor, h]
  simp [hk] at hbit

theorem crc16_flipBit_ne {s : List Byte} {i k : Nat} (hi : i < s.length) (hk : k < 8) :
    crc16 (flipBit s i k) ≠ crc16 s := by
  intro h
  have hs : s.take i ++ s[i] :: s.drop (i + 1) = s := by
    rw [List.getElem_cons_drop, List.take_append_drop]
  rw [flipBit, List.modify_eq_take_cons_drop hi] at h
  exact xor_bit_ne_self _ hk (crc16_append_cons_inj (h.trans (congrArg crc16 hs.symm)))

/-- Settles O7: linearity from the initial value 0x0000, and what one bit changes. -/
theorem crcIsLinearAndSeesOneBit : Obligations.CrcIsLinearAndSeesOneBit :=
  ⟨fun _ _ h => foldl_crcByte_xor h 0 0, fun _ _ _ hi hk => crc16_flipBit_ne hi hk⟩

/-! ### The zero residue -/

/-- Two bytes after a sequence bring the register to 0x0000 exactly when they are its CRC (R109). -/
theorem crc16_append_two_eq_zero_iff (m : List Byte) (a b : Byte) :
    crc16 (m ++ [a, b]) = 0x0000 ↔ crc16 m = be16 a b := by
  have hown : [a, b].foldl crcByte (be16 a b) = 0x0000 := crc_own_bytes a b
  rw [crc16_append, ← hown]
  exact ⟨crcFold_inj_reg [a, b], fun h => by rw [h]⟩

/-- Settles O8: the inner bytes of a frame are its middle section and the two bytes of its CRC field. -/
theorem zeroResidue : Obligations.ZeroResidue := by
  refine ⟨fun m => ?_, fun p f hf => ?_⟩
  · rw [crc16_append_two_eq_zero_iff, be16_hi8_lo8]
  · obtain ⟨m, l, h, s0, s1, d0, d1, fn, pay, a, b, e, rfl⟩ := exists_fieldsOf hf
    rw [fchk_fieldsOf, fieldsOf_length, show pay.length + 11 - 1 = pay.length + 10 from rfl,
      slice_fieldsOf_inner, crc16_append_two_eq_zero_iff, beq_iff_eq]

/-! ### The remainder of a polynomial -/

section
open Polynomial

/-- The generator X^16 + X^12 + X^5 + 1 over GF(2) (R100). -/
noncomputable def generator : (ZMod 2)[X] := X ^ 16 + X ^ 12 + X ^ 5 + 1

/-- A word as a polynomial over GF(2): bit `k` is the coefficient of X^k. -/
noncomputable def wordPoly {w : Nat} (v : BitVec w) : (ZMod 2)[X] :=
  ∑ k ∈ Finset.range w, if v.getLsbD k then X ^ k else 0

/-- The register `c` is what is left of the message `m`, times X^16, modulo the generator. -/
def HasRemainder (m : (ZMod 2)[X]) (c : Half) : Prop := ∃ q, m * X ^ 16 = q * generator + wordPoly c

/-- In characteristic 2, XOR of two conditions is addition. -/
theorem ite_xor_eq_add (a b : Bool) (x : (ZMod 2)[X]) :
    (if a ^^ b then x else 0) = (if a then x else 0) + if b then x else 0 := by
  cases a <;> cases b <;> simp [CharTwo.add_self_eq_zero]

theorem wordPoly_xor {w : Nat} (u v : BitVec w) : wordPoly (u ^^^ v) = wordPoly u + wordPoly v := by
  simp only [wordPoly, BitVec.getLsbD_xor, ite_xor_eq_add, Finset.sum_add_distrib]

/-- The constant `POLY` is the generator with the X^16 term implied (R8). -/
theorem wordPoly_poly_add_generator : wordPoly Config.poly + generator = X ^ 16 := by
  have hpoly : wordPoly Config.poly = 1 + X ^ 5 + X ^ 12 := by
    simp [wordPoly, Config.poly, Finset.sum_range_succ]
  have hgen : generator = wordPoly Config.poly + X ^ 16 := by rw [hpoly, generator]; ring
  rw [hgen, ← add_assoc, CharTwo.add_self_eq_zero, zero_add]

/-- A shift multiplies by X and loses the bit shifted out. -/
theorem wordPoly_mul_X (c : Half) :
    wordPoly c * X = wordPoly (c <<< 1) + if c.getLsbD 15 then X ^ 16 else 0 := by
  have hmoved : ∀ k ∈ Finset.range 15, (if c.getLsbD k then (X : (ZMod 2)[X]) ^ k else 0) * X =
      if (c <<< 1).getLsbD (k + 1) then X ^ (k + 1) else 0 := by
    intro k hk
    have hk' : k + 1 < 16 := Nat.succ_lt_succ (Finset.mem_range.mp hk)
    rw [ite_mul, zero_mul, ← pow_succ, BitVec.getLsbD_shiftLeft, decide_eq_true hk']
    rfl
  have hempty : (c <<< 1).getLsbD 0 = false := by simp
  rw [wordPoly, wordPoly, Finset.sum_range_succ, Finset.sum_range_succ' _ 15, add_mul, Finset.sum_mul,
    Finset.sum_congr rfl hmoved, ite_mul, zero_mul, ← pow_succ, hempty, if_neg Bool.false_ne_true, add_zero]

/-- A bit step multiplies by X, adds the data bit as X^16, and takes the generator away on feedback (R101). -/
theorem wordPoly_crcBit (c : Half) (d : Bool) :
    wordPoly c * X + (if d then X ^ 16 else 0) =
      wordPoly (crcBit c d) + if c.getLsbD 15 ^^ d then generator else 0 := by
  rw [wordPoly_mul_X, add_assoc, ← ite_xor_eq_add, crcBit]
  cases c.getLsbD 15 ^^ d with
  | false => rfl
  | true => rw [if_pos rfl, if_pos rfl, if_pos rfl, wordPoly_xor, add_assoc, wordPoly_poly_add_generator]

/-- A bit step appends one bit to the message. -/
theorem HasRemainder.bitStep {m : (ZMod 2)[X]} {c : Half} (h : HasRemainder m c) (d : Bool) :
    HasRemainder (m * X + if d then 1 else 0) (crcBit c d) := by
  obtain ⟨q, hq⟩ := h
  refine ⟨q * X + if c.getLsbD 15 ^^ d then 1 else 0, ?_⟩
  calc (m * X + if d then 1 else 0) * X ^ 16
      = m * X ^ 16 * X + if d then X ^ 16 else 0 := by
        rw [add_mul, mul_right_comm, ite_mul, zero_mul, one_mul]
    _ = q * X * generator + (wordPoly c * X + if d then X ^ 16 else 0) := by rw [hq]; ring
    _ = (q * X + if c.getLsbD 15 ^^ d then 1 else 0) * generator + wordPoly (crcBit c d) := by
        rw [wordPoly_crcBit, add_mul, ite_mul, zero_mul, one_mul]
        ring

theorem wordPoly_eq_sum_mul {w : Nat} (v : BitVec w) :
    wordPoly v = ∑ k ∈ Finset.range w, (if v.getLsbD k then 1 else 0) * X ^ k := by
  simp only [wordPoly, ite_mul, one_mul, zero_mul]

/-- The bits of a byte, bit 7 first, appended to a message (R102). -/
theorem foldl_bits_eq (m : (ZMod 2)[X]) (b : Byte) :
    [7, 6, 5, 4, 3, 2, 1, 0].foldl (fun m k => m * X + if b.getLsbD k then 1 else 0) m =
      m * X ^ 8 + wordPoly b := by
  simp only [wordPoly_eq_sum_mul, Finset.sum_range_succ, Finset.sum_range_zero, List.foldl_cons,
    List.foldl_nil]
  ring

theorem HasRemainder.byteStep {m : (ZMod 2)[X]} {c : Half} (h : HasRemainder m c) (b : Byte) :
    HasRemainder (m * X ^ 8 + wordPoly b) (crcByte c b) := by
  rw [← foldl_bits_eq]
  exact (((((((h.bitStep _).bitStep _).bitStep _).bitStep _).bitStep _).bitStep _).bitStep _).bitStep _

theorem HasRemainder.byteSteps {m : (ZMod 2)[X]} {c : Half} (h : HasRemainder m c) (s : List Byte) :
    HasRemainder (s.foldl (fun m b => m * X ^ 8 + wordPoly b) m) (s.foldl crcByte c) := by
  induction s generalizing m c with
  | nil => exact h
  | cons b s ih => exact ih (h.byteStep b)

theorem hasRemainder_zero : HasRemainder 0 Config.crcInit :=
  ⟨0, by simp [wordPoly, Config.crcInit]⟩

end

/-- Settles O6: the empty message has remainder 0, and each byte step appends its byte to the message. -/
theorem crcIsTheRemainderModuloTheGenerator : Obligations.CrcIsTheRemainderModuloTheGenerator :=
  hasRemainder_zero.byteSteps

end Sys2Proof.Machine
end

section
/-!
PROOFS. The transmit framer (41_tx_framer.md): what ENC does when one of its tests fails and when all pass, and
what the checker reads in the frame it sent.
-/

namespace Sys2Proof.Machine

/-! ### What ENC does -/

section
variable {dst src fn payload : List Byte} {s : State}

/-- The first failing test is raised (R124). -/
theorem encodeFrame_of_failure {c : Cause} {n : Nat} (h : encFailure s.params dst src fn payload = some (c, n)) :
    encodeFrame dst src fn payload s = raise c n s := by
  rw [encodeFrame, h]

/-- With the tests passed, the frame is sent and answered (R122). -/
theorem encodeFrame_of_wellFormed (hdst : dst.length = 2) (hsrc : src.length = 2) (hfn : fn.length = 1)
    (hpay : payload.length ≤ s.params.payloadMax.val) :
    encodeFrame dst src fn payload s = respond (.okFrame (buildFrame dst src fn payload))
      { s with txOut := s.txOut ++ buildFrame dst src fn payload } := by
  rw [encodeFrame, encFailure_eq_none hdst hsrc hfn hpay]

end

/-- Settles O13: case by case, the tests before the failing one pass. -/
theorem encRaisesTheFirstFailingTest : Obligations.EncRaisesTheFirstFailingTest := by
  intro s dst src fn payload
  refine ⟨fun hdst => ?_, fun hdst hsrc => ?_, fun hdst hsrc hfn => ?_, fun hdst hsrc hfn hpay => ?_⟩
  · have hfail : encFailure s.params dst src fn payload = some (.dstLen, dst.length) := if_pos hdst
    exact congrArg _ (encodeFrame_of_failure hfail)
  · have hfail : encFailure s.params dst src fn payload = some (.srcLen, src.length) := by
      simp [encFailure, hdst, hsrc]
    exact congrArg _ (encodeFrame_of_failure hfail)
  · have hfail : encFailure s.params dst src fn payload = some (.fnLen, fn.length) := by
      simp [encFailure, hdst, hsrc, hfn]
    exact congrArg _ (encodeFrame_of_failure hfail)
  · have hfail : encFailure s.params dst src fn payload = some (.payloadLen, payload.length) := by
      simp [encFailure, hdst, hsrc, hfn, hpay]
    exact congrArg _ (encodeFrame_of_failure hfail)

/-! ### LEN fits in 16 bits -/

/-- No implementation accepts a payload longer than 65530 bytes (R7). -/
theorem le_of_le_payloadMax {p : Params} {n : Nat} (h : n ≤ p.payloadMax.val) : n ≤ 65530 :=
  Nat.le_of_lt_succ (h.trans_lt p.payloadMax.isLt)

theorem toNat_len {n : Nat} (h : n ≤ 65530) : (BitVec.ofNat 16 (5 + n)).toNat = 5 + n :=
  Nat.mod_eq_of_lt (by omega)

/-- The middle section with the bytes of LEN as numbers (R122). -/
theorem middleSection_eq_numbers (dst src fn : List Byte) {payload : List Byte} (h : payload.length ≤ 65530) :
    middleSection dst src fn payload =
      [BitVec.ofNat 8 ((5 + payload.length) % 256), BitVec.ofNat 8 ((5 + payload.length) / 256)] ++
        src ++ dst ++ fn ++ payload := by
  rw [middleSection, Config.hdrFixed, lo8_eq_ofNat, hi8_eq_ofNat, toNat_len h]

/-- Settles O12: the two bytes of LEN and of the CRC are their remainder and their quotient by 256. -/
theorem encAppendsTheFrame : Obligations.EncAppendsTheFrame := by
  refine ⟨fun _ _ _ _ _ => rfl, fun s dst src fn payload hdst hsrc hfn hpay => ?_⟩
  rw [exec_enc, encodeFrame_of_wellFormed hdst hsrc hfn hpay, buildFrame, wrap, hi8_eq_ofNat, lo8_eq_ofNat,
    middleSection_eq_numbers dst src fn (le_of_le_payloadMax hpay)]
  rfl

/-! ### What the checker reads in the frame -/

/-- Settles O15: VERIFY computes the verdict of the frame, and the marks, LEN and the CRC lie at their places. -/
theorem encodedFramesVerify : Obligations.EncodedFramesVerify := by
  intro s dst src fn payload hdst hsrc hfn hpay
  have hmax := le_of_le_payloadMax hpay
  obtain ⟨d0, d1, rfl⟩ := List.length_eq_two.mp hdst
  obtain ⟨s0, s1, rfl⟩ := List.length_eq_two.mp hsrc
  obtain ⟨f0, rfl⟩ := List.length_eq_one_iff.mp hfn
  refine ⟨_, _, _, rfl, encodeFrame_txOut s d0 d1 s0 s1 f0 hpay, rfl, ?verdict, ?fields⟩
  case verdict =>
    rw [verifyFrame, check_chk, fchk_buildFrame_ok _ rfl rfl rfl hmax]
    rfl
  case fields =>
    rw [buildFrame_eq_fieldsOf]
    refine ⟨?len, fieldsOf_head? .., fieldsOf_getLast? .., ?crc⟩
    case len =>
      rw [byteAt_fieldsOf_lenLo, byteAt_fieldsOf_lenHi, le16_lo8_hi8, toNat_len hmax]
    case crc =>
      rw [fieldsOf_length, show payload.length + 11 - 3 = payload.length + 8 from rfl,
        show payload.length + 11 - 2 = payload.length + 9 from rfl, slice_fieldsOf_middle,
        byteAt_fieldsOf_crcHi, byteAt_fieldsOf_crcLo, be16_hi8_lo8]

/-- PARSE of the frame ENC builds reads its operands back, LEN and the CRC of the middle section (R161, R164). -/
theorem parseAnswer_fchk_buildFrame (p : Params) (a b c d e : Byte) {payload : List Byte}
    (h : payload.length ≤ 65530) :
    parseAnswer (fchk p (buildFrame [a, b] [c, d] [e] payload)) =
      { valid := true, ok := true, dst := [a, b], src := [c, d], fn := e,
        len := BitVec.ofNat 16 (5 + payload.length), payload := payload,
        crc := crc16 (middleSection [a, b] [c, d] [e] payload), ackValid := true,
        ack := match p.ackOffset with | .six => b | .seven => e
        n := 11 + payload.length } := by
  have hok : (fchk p (buildFrame [a, b] [c, d] [e] payload)).ok = true := fchk_buildFrame_ok p rfl rfl rfl h
  rw [parseAnswer, hok, buildFrame_eq_fieldsOf, fchk_fieldsOf]
  cases p.ackOffset <;> simp [middleSection, Config.hdrFixed, Nat.add_comm 11]

/-- Settles O16: the state after ENC has the same parameters, so PARSE reads the frame as they say. -/
theorem parseReadsBackWhatEncSent : Obligations.ParseReadsBackWhatEncSent := by
  intro s a b c d e payload hpay
  refine ⟨_, _, buildFrame [a, b] [c, d] [e] payload, crc16 (middleSection [a, b] [c, d] [e] payload), rfl,
    encodeFrame_txOut s a b c d e hpay, rfl, ?_⟩
  have hfields := parseAnswer_fchk_buildFrame s.params a b c d e (le_of_le_payloadMax hpay)
  rw [encodeFrame_of_wellFormed rfl rfl rfl hpay, parseFrame, respond_rsp, check_rsp, check_chk,
    respond_params]
  exact congrArg (_ ++ [Answer.okParse ·]) hfields

end Sys2Proof.Machine
end

section
/-!
PROOFS. The receive scanner (42_rx_deframer.md): everything one RX.BYTE does, the shape of what `split_frames`
returns, and the scanner's run over a whole buffer, which is `split_frames` cut at `CAND_MAX`.
-/

namespace Sys2Proof.Machine

/-! ### One byte -/

/-- Settles O20: each row of R142 is one of the laws of RX.BYTE. -/
theorem rxByteFollowsTheTable : Obligations.RxByteFollowsTheTable := by
  refine ⟨fun _ _ => rfl, fun s b => ⟨?_, ?_, ?_, ?_, ?_, ?_, ?_, ?_⟩⟩
  · rintro hst rfl
    exact congrArg _ (rxByte_hunt_start hst)
  · exact fun hst hb => congrArg _ (rxByte_hunt_other hst hb)
  · rintro hst rfl hadm
    exact congrArg _ (rxByte_collect_end hst (roomGone_of_admits_succ hadm))
  · exact fun hst hb hadm => congrArg _ (rxByte_collect_other hst (roomGone_of_admits_succ hadm) hb)
  · rintro hst rfl hfull
    exact congrArg _ (rxByte_full_end hst ((roomGone_iff _ _).mpr hfull))
  · exact fun hst hb hfull => congrArg _ (rxByte_full_other hst ((roomGone_iff _ _).mpr hfull) hb)
  · rintro hst rfl
    exact congrArg _ (rxByte_drop_end hst)
  · exact fun hst hb => congrArg _ (rxByte_drop_other hst hb)

/-- Settles O25: the meaning of RX.FLUSH. -/
theorem rxFlushDropsThePartialCandidate : Obligations.RxFlushDropsThePartialCandidate :=
  ⟨fun _ => rfl, exec_rxFlush⟩

/-- Everything one RX.BYTE can do: the eight rows of R142, each with its guards. -/
theorem rxByte_cases (b : Byte) (s : State) :
    (s.rxState = .hunt ∧ b = Config.startMark ∧
      rxByte b s = { s with rxBuf := [Config.startMark], rxState := .collect }) ∨
    (s.rxState = .hunt ∧ b ≠ Config.startMark ∧ rxByte b s = s) ∨
    (s.rxState = .collect ∧ roomGone s.params.candMax s.rxBuf.length = false ∧ b = Config.endMark ∧
      rxByte b s =
        { s with candOut := s.candOut ++ [s.rxBuf ++ [Config.endMark]], rxBuf := [], rxState := .hunt }) ∨
    (s.rxState = .collect ∧ roomGone s.params.candMax s.rxBuf.length = false ∧ b ≠ Config.endMark ∧
      rxByte b s = { s with rxBuf := s.rxBuf ++ [b] }) ∨
    (s.rxState = .collect ∧ roomGone s.params.candMax s.rxBuf.length = true ∧ b = Config.endMark ∧
      rxByte b s = { s with rxBuf := [], errFlags := s.errFlags ||| rxOvfBit, rxState := .hunt }) ∨
    (s.rxState = .collect ∧ roomGone s.params.candMax s.rxBuf.length = true ∧ b ≠ Config.endMark ∧
      rxByte b s = { s with rxBuf := [], errFlags := s.errFlags ||| rxOvfBit, rxState := .drop }) ∨
    (s.rxState = .drop ∧ b = Config.endMark ∧ rxByte b s = { s with rxState := .hunt }) ∨
    (s.rxState = .drop ∧ b ≠ Config.endMark ∧ rxByte b s = s) := by
  cases hst : s.rxState with
  | hunt =>
    by_cases hb : b = Config.startMark
    · simp [hb, rxByte_hunt_start hst]
    · simp [hb, rxByte_hunt_other hst hb]
  | collect =>
    cases hroom : roomGone s.params.candMax s.rxBuf.length <;> by_cases hb : b = Config.endMark
    · simp [hb, rxByte_collect_end hst hroom]
    · simp [hb, hst, rxByte_collect_other hst hroom hb]
    · simp [hb, rxByte_full_end hst hroom]
    · simp [hb, rxByte_full_other hst hroom hb]
  | drop =>
    by_cases hb : b = Config.endMark
    · simp [hb, rxByte_drop_end hst]
    · simp [hb, rxByte_drop_other hst hb]

/-- Settles O21: each thing RX.BYTE can do keeps `rx_state` or is on the list. -/
theorem rxStateMovesOnlyAlongTheList : Obligations.RxStateMovesOnlyAlongTheList := by
  intro s b
  refine ⟨_, exec_rxByte s b, ?_⟩
  rcases rxByte_cases b s with ⟨hst, hb, he⟩ | ⟨hst, -, he⟩ | ⟨hst, -, hb, he⟩ | ⟨hst, -, -, he⟩ |
    ⟨hst, -, hb, he⟩ | ⟨hst, hroom, hb, he⟩ | ⟨hst, hb, he⟩ | ⟨hst, -, he⟩ <;> rw [he]
  · exact ⟨.inr (.inl ⟨hst, rfl, hb⟩), by simp [hst]⟩
  · exact ⟨.inl rfl, by simp [hst]⟩
  · exact ⟨.inr (.inr (.inl ⟨hst, rfl, hb⟩)), by simp⟩
  · exact ⟨.inl rfl, fun _ _ => rfl⟩
  · exact ⟨.inr (.inr (.inl ⟨hst, rfl, hb⟩)), by simp⟩
  · exact ⟨.inr (.inr (.inr (.inl ⟨hst, rfl, hb, (roomGone_iff _ _).mp hroom⟩))), by simp⟩
  · exact ⟨.inr (.inr (.inr (.inr ⟨hst, rfl, hb⟩))), by simp⟩
  · exact ⟨.inl rfl, by simp [hst]⟩

/-- A byte that adds to `cand_out` is the end byte in COLLECT, and adds the candidate it ends (R142). -/
theorem rxByte_of_candOut_ne {b : Byte} {s : State} (h : (rxByte b s).candOut ≠ s.candOut) :
    s.rxState = .collect ∧ b = Config.endMark ∧ rxByte b s =
      { s with candOut := s.candOut ++ [s.rxBuf ++ [Config.endMark]], rxBuf := [], rxState := .hunt } := by
  rcases rxByte_cases b s with ⟨-, -, he⟩ | ⟨-, -, he⟩ | ⟨hst, -, hb, he⟩ | ⟨-, -, -, he⟩ | ⟨-, -, -, he⟩ |
    ⟨-, -, -, he⟩ | ⟨-, -, he⟩ | ⟨-, -, he⟩
  case inr.inr.inl => exact ⟨hst, hb, he⟩
  all_goals exact absurd (congrArg State.candOut he) h

/-- Settles O22: the new candidate is one of the next state, which meets the invariant too. -/
theorem completedCandidateShape : Obligations.CompletedCandidateShape := by
  intro s t b hinv hexec hne
  obtain rfl : rxByte b s = t := by simpa using hexec
  obtain ⟨hst, hb, he⟩ := rxByte_of_candOut_ne hne
  have hinv' := hinv.rxByte b
  rw [he] at hinv' ⊢
  obtain ⟨inner, hc, hend, hadm⟩ := hinv'.candidates (s.rxBuf ++ [Config.endMark]) (by simp)
  exact ⟨hb, hst, _, inner, rfl, hc, hend, by simp [hc], hadm⟩

/-! ### The turns of `split_frames` -/

/-- A turn more finds nothing more, once there is a turn for each byte. -/
theorem scan_succ {turns : Nat} {buf : List Byte} (h : buf.length ≤ turns) :
    scan (turns + 1) buf = scan turns buf := by
  induction turns generalizing buf with
  | zero =>
    obtain rfl : buf = [] := by simpa using h
    rfl
  | succ n ih =>
    cases buf with
    | nil => rfl
    | cons b rest =>
      have hrest : rest.length ≤ n := by simpa using h
      rw [scan, scan, ih hrest]
      cases hu : untilEnd rest with
      | none => rfl
      | some x =>
        obtain ⟨c, after⟩ := x
        have hlen : rest.length = c.length + after.length := by
          rw [(untilEnd_length hu).1, List.length_append]
        simp only [ih (buf := after) (by omega)]

/-- Any bound that allows a turn for each byte gives `split_frames` and the unfinished candidate. -/
theorem scan_of_length_le {turns : Nat} {buf : List Byte} (h : buf.length ≤ turns) :
    scan turns buf = (splitFrames buf, unfinished buf) := by
  induction turns, h using Nat.le_induction with
  | base => rfl
  | succ n hn ih => rw [scan_succ hn, ih]

/-- The end byte is found behind bytes that hold none. -/
theorem untilEnd_append_endMark {inner : List Byte} (h : Config.endMark ∉ inner) (after : List Byte) :
    untilEnd (inner ++ Config.endMark :: after) = some (inner ++ [Config.endMark], after) := by
  induction inner with
  | nil => rfl
  | cons b inner ih =>
    rw [List.mem_cons, not_or] at h
    rw [List.cons_append, untilEnd_cons_of_ne (Ne.symm h.1), ih h.2]
    rfl

@[simp] theorem splitFrames_nil : splitFrames [] = [] := rfl

@[simp] theorem unfinished_nil : unfinished [] = [] := rfl

section
variable {b : Byte} {rest inner : List Byte}

theorem splitFrames_cons_of_ne (hb : b ≠ Config.startMark) : splitFrames (b :: rest) = splitFrames rest := by
  rw [splitFrames, List.length_cons, scan, if_neg hb, splitFrames]

theorem unfinished_cons_of_ne (hb : b ≠ Config.startMark) : unfinished (b :: rest) = unfinished rest := by
  rw [unfinished, List.length_cons, scan, if_neg hb, unfinished]

theorem scan_open (h : Config.endMark ∉ rest) (turns : Nat) :
    scan (turns + 1) (Config.startMark :: rest) = ([], Config.startMark :: rest) := by
  rw [scan, if_pos rfl, untilEnd_none_iff.mpr h]

theorem splitFrames_open (h : Config.endMark ∉ rest) : splitFrames (Config.startMark :: rest) = [] := by
  rw [splitFrames, List.length_cons, scan_open h]

theorem unfinished_open (h : Config.endMark ∉ rest) :
    unfinished (Config.startMark :: rest) = Config.startMark :: rest := by
  rw [unfinished, List.length_cons, scan_open h]

theorem scan_candidate (h : Config.endMark ∉ inner) {turns : Nat} {after : List Byte}
    (hturns : after.length ≤ turns) :
    scan (turns + 1) (Config.startMark :: (inner ++ Config.endMark :: after)) =
      ((Config.startMark :: (inner ++ [Config.endMark])) :: splitFrames after, unfinished after) := by
  rw [scan, if_pos rfl, untilEnd_append_endMark h]
  simp only [scan_of_length_le hturns]

theorem splitFrames_candidate (h : Config.endMark ∉ inner) (after : List Byte) :
    splitFrames (Config.startMark :: (inner ++ Config.endMark :: after)) =
      (Config.startMark :: (inner ++ [Config.endMark])) :: splitFrames after := by
  rw [splitFrames, List.length_cons, scan_candidate h (by simp; omega)]

theorem unfinished_candidate (h : Config.endMark ∉ inner) (after : List Byte) :
    unfinished (Config.startMark :: (inner ++ Config.endMark :: after)) = unfinished after := by
  rw [unfinished, List.length_cons, scan_candidate h (by simp; omega)]

end

/-- The induction along the turns of R140's loop: a byte outside a candidate, a candidate that no end byte
ends, a candidate and the bytes after it. -/
theorem splitFrames_induction {P : List Byte → Prop} (nil : P [])
    (gap : ∀ b rest, b ≠ Config.startMark → P rest → P (b :: rest))
    (unended : ∀ rest, Config.endMark ∉ rest → P (Config.startMark :: rest))
    (candidate : ∀ inner after, Config.endMark ∉ inner → P after →
      P (Config.startMark :: (inner ++ Config.endMark :: after))) (buf : List Byte) : P buf := by
  match buf with
  | [] => exact nil
  | b :: rest =>
    by_cases hb : b = Config.startMark
    · subst hb
      cases hu : untilEnd rest with
      | none => exact unended rest (untilEnd_none_iff.mp hu)
      | some x =>
        obtain ⟨c, after⟩ := x
        obtain ⟨hrest, inner, rfl, hend⟩ := untilEnd_length hu
        rw [List.append_assoc, List.singleton_append] at hrest
        subst hrest
        exact candidate inner after hend
          (splitFrames_induction nil gap unended candidate after)
    · exact gap b rest hb (splitFrames_induction nil gap unended candidate rest)
termination_by buf.length

/-! ### The candidates in the buffer -/

/-- A candidate begins with 0x68, ends with 0x16 and holds no other 0x16 (R149). -/
theorem splitFrames_shape {buf c : List Byte} (h : c ∈ splitFrames buf) :
    ∃ inner, c = Config.startMark :: (inner ++ [Config.endMark]) ∧ Config.endMark ∉ inner := by
  induction buf using splitFrames_induction with
  | nil => simp at h
  | gap b rest hb ih => exact ih (by rwa [splitFrames_cons_of_ne hb] at h)
  | unended rest hend => simp [splitFrames_open hend] at h
  | candidate inner after hend ih =>
    rw [splitFrames_candidate hend, List.mem_cons] at h
    rcases h with rfl | h
    · exact ⟨inner, rfl, hend⟩
    · exact ih h

theorem unfinished_shape {buf : List Byte} (h : unfinished buf ≠ []) :
    (unfinished buf).head? = some Config.startMark ∧ Config.endMark ∉ unfinished buf := by
  induction buf using splitFrames_induction with
  | nil => simp at h
  | gap b rest hb ih => simpa [unfinished_cons_of_ne hb] using ih (by rwa [unfinished_cons_of_ne hb] at h)
  | unended rest hend => simp [unfinished_open hend, hend, startMark_ne_endMark.symm]
  | candidate inner after hend ih =>
    simpa [unfinished_candidate hend] using ih (by rwa [unfinished_candidate hend] at h)

theorem flatten_splitFrames_sublist (buf : List Byte) : (splitFrames buf).flatten.Sublist buf := by
  induction buf using splitFrames_induction with
  | nil => simp
  | gap b rest hb ih => rw [splitFrames_cons_of_ne hb]; exact ih.cons b
  | unended rest hend => simp [splitFrames_open hend]
  | candidate inner after hend ih => simpa [splitFrames_candidate hend] using ih

/-- The buffer is gaps without a start byte, the candidates between them, and the unfinished candidate;
`skipped` is what the scan has passed of the gap it stands in. -/
theorem splitFrames_gaps (buf : List Byte) : ∀ skipped : List Byte, Config.startMark ∉ skipped →
    ∃ gaps last, gaps.length = (splitFrames buf).length ∧
      skipped ++ buf = (List.zipWith (· ++ ·) gaps (splitFrames buf)).flatten ++ last ++ unfinished buf ∧
      (∀ g ∈ gaps, Config.startMark ∉ g) ∧ Config.startMark ∉ last := by
  induction buf using splitFrames_induction with
  | nil => exact fun skipped hs => ⟨[], skipped, rfl, by simp, by simp, hs⟩
  | gap b rest hb ih =>
    intro skipped hs
    rw [splitFrames_cons_of_ne hb, unfinished_cons_of_ne hb, ← List.singleton_append, ← List.append_assoc]
    exact ih (skipped ++ [b]) (by simp [hs, Ne.symm hb])
  | unended rest hend =>
    intro skipped hs
    exact ⟨[], skipped, by simp [splitFrames_open hend], by simp [unfinished_open hend], by simp, hs⟩
  | candidate inner after hend ih =>
    intro skipped hs
    obtain ⟨gaps, last, hlen, hbuf, hgaps, hlast⟩ := ih [] (by simp)
    rw [List.nil_append] at hbuf
    refine ⟨skipped :: gaps, last, by simp [splitFrames_candidate hend, hlen], ?_, ?_, hlast⟩
    · rw [splitFrames_candidate hend, unfinished_candidate hend, List.zipWith_cons_cons, List.flatten_cons,
        List.append_assoc, List.append_assoc, ← List.append_assoc _ last, ← hbuf]
      simp
    · simpa [hs] using hgaps

/-- Settles O24: the gaps of a scan that has passed nothing, and the shape of what it finds. -/
theorem candidatesAreDisjointSlices : Obligations.CandidatesAreDisjointSlices := by
  intro buf
  obtain ⟨gaps, last, hlen, hbuf, hgaps, hlast⟩ := splitFrames_gaps buf [] (by simp)
  exact ⟨gaps, last, hlen, hbuf, hgaps, hlast, fun _ => splitFrames_shape, unfinished_shape,
    flatten_splitFrames_sublist buf⟩

/-! ### The scanner's run over a buffer -/

/-- The state after the bytes of `buf` arrived in HUNT, by `split_frames` (R145, R146): the candidates that
`CAND_MAX` admits are delivered, the unfinished one is collected or dropped, and a longer one sets `RX_OVF`. -/
def afterScan (buf : List Byte) (s : State) : State :=
  { s with
    rxState := if unfinished buf = [] then .hunt
      else if s.params.candMax.admits (unfinished buf).length then .collect else .drop
    rxBuf := if s.params.candMax.admits (unfinished buf).length then unfinished buf else []
    candOut := s.candOut ++ (splitFrames buf).filter (fun c => s.params.candMax.admits c.length)
    errFlags := if (unfinished buf :: splitFrames buf).all (fun c => s.params.candMax.admits c.length)
      then s.errFlags else s.errFlags ||| rxOvfBit }

theorem finishCandidate_rxState (c : List Byte) (s : State) : (finishCandidate c s).rxState = .hunt := by
  rw [finishCandidate]; split <;> rfl

theorem finishCandidate_rxBuf (c : List Byte) (s : State) : (finishCandidate c s).rxBuf = [] := by
  rw [finishCandidate]; split <;> rfl

/-- A candidate that ended takes its part in what follows: delivered, or `RX_OVF` set. -/
theorem afterScan_finishCandidate {inner : List Byte} (h : Config.endMark ∉ inner) (after : List Byte)
    (s : State) :
    afterScan after (finishCandidate (inner ++ [Config.endMark])
        { s with rxBuf := [Config.startMark], rxState := .collect }) =
      afterScan (Config.startMark :: (inner ++ Config.endMark :: after)) s := by
  cases hadm : s.params.candMax.admits (inner.length + 1 + 1) <;>
    simp [finishCandidate, afterScan, splitFrames_candidate h, unfinished_candidate h, Nat.add_comm 1, hadm,
      rxOvfBit_idem]

/-- The bytes of a buffer, received one by one from HUNT, leave what `split_frames` says (R146). -/
theorem rxBytes_eq_afterScan (buf : List Byte) {s : State} (hst : s.rxState = .hunt) (hbuf : s.rxBuf = []) :
    rxBytes buf s = afterScan buf s := by
  induction buf using splitFrames_induction generalizing s with
  | nil =>
    cases s; cases hst; cases hbuf
    simp [afterScan, admits_of_le_eleven]
  | gap b rest hb ih =>
    rw [rxBytes_cons, rxByte_hunt_other hst hb, ih hst hbuf, afterScan, afterScan, splitFrames_cons_of_ne hb,
      unfinished_cons_of_ne hb]
  | unended rest hend =>
    rw [rxBytes_cons, rxByte_hunt_start hst,
      rxBytes_collect_none hend rfl (admits_of_le_eleven _ (by simp)), afterScan, splitFrames_open hend,
      unfinished_open hend]
    cases hadm : s.params.candMax.admits (rest.length + 1) <;> simp [Nat.add_comm 1, hadm]
  | candidate inner after hend ih =>
    rw [rxBytes_cons, rxByte_hunt_start hst,
      rxBytes_collect_some (untilEnd_append_endMark hend after) rfl (admits_of_le_eleven _ (by simp)),
      ← afterScan_finishCandidate hend]
    exact ih (finishCandidate_rxState ..) (finishCandidate_rxBuf ..)

/-- Settles O23: the registers of `afterScan`; no bytes are never too many, so an unfinished candidate that
`CAND_MAX` refuses is not empty. -/
theorem rxStreamEqualsSplitFrames : Obligations.RxStreamEqualsSplitFrames := by
  intro s buf hst hbuf
  refine ⟨afterScan buf s, by rw [runInstrs_rxByte, rxBytes_eq_afterScan buf hst hbuf], rfl, ?_⟩
  by_cases hnone : unfinished buf = []
  · simp [afterScan, hnone]
  · cases hadm : s.params.candMax.admits (unfinished buf).length <;> simp [afterScan, hnone, hadm]

/-- Settles O26: the first RX.FLUSH starts the scan in HUNT, the last drops what is unfinished. -/
theorem splitEqualsSplitFrames : Obligations.SplitEqualsSplitFrames := by
  intro s buf
  rw [exec_split, splitBuffer, rxBytes_eq_afterScan buf rfl rfl]
  simp [afterScan, rxFlush, respond, rxOvfBit]

/-! ### Batches -/

/-- An unbounded `CAND_MAX` lets every candidate pass. -/
theorem afterScan_candOut_of_unbounded {s : State} (h : s.params.candMax = .unbounded) (buf : List Byte) :
    (afterScan buf s).candOut = s.candOut ++ splitFrames buf := by
  simp [afterScan, h]

theorem batchProgram_false (batches : List (List Byte)) :
    batchProgram false batches = batches.flatten.map .rxByte := by
  simp [batchProgram, List.flatMap, List.map_flatten]

theorem runInstrs_batchProgram_true_cons (batch : List Byte) (batches : List (List Byte)) (s : State) :
    runInstrs (batchProgram true (batch :: batches)) s =
      runInstrs (batchProgram true batches) (rxFlush (rxBytes batch s)) := by
  have hbatch : runInstrs (batch.map .rxByte ++ [.rxFlush]) s = .next (rxFlush (rxBytes batch s)) := by
    rw [runInstrs_append (runInstrs_rxByte s batch)]
    rfl
  exact runInstrs_append hbatch

/-- RX.FLUSH after each batch: every batch is scanned from HUNT (R147). -/
theorem batchProgram_true_candOut (batches : List (List Byte)) {s : State} (hst : s.rxState = .hunt)
    (hbuf : s.rxBuf = []) (hmax : s.params.candMax = .unbounded) :
    ∃ t, runInstrs (batchProgram true batches) s = .next t ∧
      t.candOut = s.candOut ++ batches.flatMap splitFrames := by
  induction batches generalizing s with
  | nil => exact ⟨s, rfl, by simp⟩
  | cons batch batches ih =>
    rw [runInstrs_batchProgram_true_cons, rxBytes_eq_afterScan batch hst hbuf]
    obtain ⟨t, hrun, hout⟩ := ih (s := rxFlush (afterScan batch s)) rfl rfl hmax
    refine ⟨t, hrun, ?_⟩
    calc t.candOut = (afterScan batch s).candOut ++ batches.flatMap splitFrames := hout
      _ = s.candOut ++ (batch :: batches).flatMap splitFrames := by
        rw [afterScan_candOut_of_unbounded hmax, List.flatMap_cons, List.append_assoc]

/-- Settles O28: with RX.FLUSH, batch after batch; without it, one run over the bytes joined. -/
theorem batchPolicyDecidesReassembly : Obligations.BatchPolicyDecidesReassembly := by
  intro s batches hst hbuf hmax
  refine ⟨batchProgram_true_candOut batches hst hbuf hmax, afterScan batches.flatten s, ?_,
    afterScan_candOut_of_unbounded hmax _⟩
  rw [batchProgram_false, runInstrs_rxByte, rxBytes_eq_afterScan _ hst hbuf]

end Sys2Proof.Machine
end

section
/-!
PROOFS. The checker and parser (43_checker_parser.md): what VERIFY and PARSE write and answer, the frames they
accept, which are those ENC builds, and what one flipped bit does to an accepted frame.
-/

namespace Sys2Proof.Machine

/-! ### What VERIFY and PARSE write and answer -/

/-- VERIFY writes the registers of `fchk` and answers the verdict among them (R163). -/
theorem verifyFrame_eq (f : List Byte) (s : State) :
    verifyFrame f s = { s with chk := fchk s.params f, rsp := s.rsp ++ [.okVerdict (fchk s.params f).ok] } := rfl

@[simp] theorem verifyFrame_chk (f : List Byte) (s : State) : (verifyFrame f s).chk = fchk s.params f := rfl

/-- Settles O33: an operand of at least 11 bytes is made of its fields, and `fchk` reads those. -/
theorem verifyReadsEveryField : Obligations.VerifyReadsEveryField := by
  refine ⟨fun p f hadm => decode_eq_ok_iff.mpr ⟨rfl, hadm⟩, fun s f hf => ⟨_, rfl, ?_⟩⟩
  rw [check_chk]
  obtain ⟨m, l, h, s0, s1, d0, d1, fn, pay, a, b, e, rfl⟩ := exists_fieldsOf hf
  have hinner : fieldsOf m l h s0 s1 d0 d1 fn pay a b e =
      (fieldsOf m l h s0 s1 d0 d1 fn pay a b e).take 8 ++ pay ++
        (fieldsOf m l h s0 s1 d0 d1 fn pay a b e).drop (pay.length + 8) := by simp [fieldsOf]
  rw [fchk_fieldsOf, fieldsOf_length, show pay.length + 11 - 3 = pay.length + 8 from rfl,
    show pay.length + 11 - 2 = pay.length + 9 from rfl, slice_fieldsOf_middle, byteAt_fieldsOf_crcHi,
    byteAt_fieldsOf_crcLo, fieldsOf_head?, fieldsOf_getLast?]
  dsimp only
  refine ⟨rfl, rfl, le16_toNat l h, rfl, rfl, rfl, rfl, rfl, rfl, rfl, hinner, be16_toNat a b, rfl, ?delim,
    ?len, ?crc, ?verdict, rfl, ?ack⟩
  case delim => simp [Config.startMark, Config.endMark]
  case len => exact beq_iff_eq
  case crc => exact beq_iff_eq
  case verdict => simp only [Bool.and_eq_true, and_assoc]
  case ack => cases s.params.ackOffset <;> rfl

/-- Settles O34: of a short operand only the acknowledgement byte is read, and only within the operand. -/
theorem verifyRejectsShortOperands : Obligations.VerifyRejectsShortOperands := by
  intro s f hf
  refine ⟨(ackOf s.params f).1, (ackOf s.params f).2, ?registers, ?ack⟩
  case registers =>
    rw [exec_verify, verifyFrame_eq, fchk_short s.params hf]
    rfl
  case ack =>
    rw [ackOf]
    split_ifs with hack
    · simp [hack, byteAt]
    · simp [hack]

/-- Settles O35: PARSE writes the same registers, and its answer is made of them. -/
theorem parseAnswersTheRegisters : Obligations.ParseAnswersTheRegisters :=
  ⟨fun _ _ hadm => decode_eq_ok_iff.mpr ⟨rfl, hadm⟩, fun s f => ⟨verifyFrame f s, exec_verify s f, rfl⟩⟩

/-! ### The accepted frames are those of ENC -/

/-- A good check finds the marks, LEN and the CRC that ENC puts there, so the operand is ENC's frame of the
fields it holds (R169). -/
theorem fchk_ok_iff {p : Params} {f : List Byte} :
    (fchk p f).ok = true ↔ ∃ (d0 d1 s0 s1 fn : Byte) (pay : List Byte), pay.length ≤ 65530 ∧
      f = buildFrame [d0, d1] [s0, s1] [fn] pay := by
  constructor
  · intro hok
    obtain ⟨m, l, h, s0, s1, d0, d1, fn, pay, a, b, e, rfl⟩ := exists_fieldsOf (fchk_ok_length hok)
    simp only [fchk_fieldsOf, Bool.and_eq_true, beq_iff_eq] at hok
    obtain ⟨⟨⟨rfl, rfl⟩, hlen⟩, hcrc⟩ := hok
    have hLEN : BitVec.ofNat 16 (5 + pay.length) = le16 l h := by
      rw [Nat.add_comm, ← hlen, BitVec.ofNat_toNat, BitVec.setWidth_eq]
    have hbound := (le16 l h).isLt
    refine ⟨d0, d1, s0, s1, fn, pay, by omega, ?_⟩
    simp only [buildFrame_eq_fieldsOf, hLEN, lo8_le16, hi8_le16, hcrc, hi8_be16, lo8_be16]
  · rintro ⟨d0, d1, s0, s1, fn, pay, hpay, rfl⟩
    exact fchk_buildFrame_ok p rfl rfl rfl hpay

/-- The answer of VERIFY is the verdict of the check (R163). -/
theorem verify_answers_iff (s : State) (f : List Byte) (verdict : Bool) :
    (∃ t, exec (.verify f) s = .next t ∧ t.rsp = s.rsp ++ [.okVerdict verdict]) ↔
      (fchk s.params f).ok = verdict := by
  simp [verifyFrame_eq]

/-- ENC's frame is the sequence the rule writes out: LEN as two numbers and the five header bytes before the
payload. -/
theorem buildFrame_eq_numbers (d0 d1 s0 s1 fn : Byte) {pay : List Byte} (h : pay.length ≤ 65530) :
    let rest := s0 :: s1 :: d0 :: d1 :: fn :: pay
    let mid := [BitVec.ofNat 8 rest.length, BitVec.ofNat 8 (rest.length / 256)] ++ rest
    buildFrame [d0, d1] [s0, s1] [fn] pay = [0x68] ++ mid ++ [hi8 (crc16 mid), lo8 (crc16 mid)] ++ [0x16] := by
  have hlo : BitVec.ofNat 8 ((5 + pay.length) % 256) = BitVec.ofNat 8 (pay.length + 5) :=
    BitVec.eq_of_toNat_eq (by simp [Nat.add_comm])
  rw [buildFrame, wrap, middleSection_eq_numbers _ _ _ h, hlo, Nat.add_comm 5]
  rfl

/-- Settles O17: the bytes after LEN are the five of the header and the payload. -/
theorem verifyAcceptsExactlyTheFramesOfEnc : Obligations.VerifyAcceptsExactlyTheFramesOfEnc := by
  intro s f
  rw [verify_answers_iff, fchk_ok_iff]
  constructor
  · rintro ⟨d0, d1, s0, s1, fn, pay, hpay, rfl⟩
    exact ⟨s0 :: s1 :: d0 :: d1 :: fn :: pay, by simp, by simp only [List.length_cons]; omega,
      buildFrame_eq_numbers d0 d1 s0 s1 fn hpay⟩
  · rintro ⟨rest, hmin, hmax, hf⟩
    match rest, hmin with
    | s0 :: s1 :: d0 :: d1 :: fn :: pay, _ =>
      have hpay : pay.length ≤ 65530 := by simp only [List.length_cons] at hmax; omega
      exact ⟨d0, d1, s0, s1, fn, pay, hpay, hf.trans (buildFrame_eq_numbers d0 d1 s0 s1 fn hpay).symm⟩

/-- The check of a frame of ENC reports the operands of ENC (R161). -/
theorem fchk_buildFrame_fields (p : Params) (d0 d1 s0 s1 fn : Byte) (pay : List Byte) :
    let c := fchk p (buildFrame [d0, d1] [s0, s1] [fn] pay)
    c.dst0 = d0 ∧ c.dst1 = d1 ∧ c.src0 = s0 ∧ c.src1 = s1 ∧ c.fn = fn ∧ c.pay = pay ∧ c.plen = pay.length := by
  rw [buildFrame_eq_fieldsOf, fchk_fieldsOf]
  exact ⟨rfl, rfl, rfl, rfl, rfl, rfl, rfl⟩

/-- Settles O18: the accepted operand is ENC's frame of some fields, and the check reports those. -/
theorem acceptedFrameIsRebuiltFromItsFields : Obligations.AcceptedFrameIsRebuiltFromItsFields := by
  rintro s _ f ⟨⟩ hok hpay
  rw [verifyFrame_chk] at hok hpay ⊢
  obtain ⟨d0, d1, s0, s1, fn, pay, -, rfl⟩ := fchk_ok_iff.mp hok
  obtain ⟨hd0, hd1, hs0, hs1, hfn, hp, hplen⟩ := fchk_buildFrame_fields s.params d0 d1 s0 s1 fn pay
  rw [hplen] at hpay
  rw [hd0, hd1, hs0, hs1, hfn, hp]
  exact ⟨_, rfl, encodeFrame_txOut _ d0 d1 s0 s1 fn hpay⟩

/-! ### What one flipped bit changes -/

theorem le16_inj {a b a' b' : Byte} : le16 a b = le16 a' b' ↔ a = a' ∧ b = b' := by
  refine ⟨fun h => ⟨?_, ?_⟩, fun ⟨ha, hb⟩ => by rw [ha, hb]⟩
  · rw [← lo8_le16 a b, h, lo8_le16]
  · rw [← hi8_le16 a b, h, hi8_le16]

section
variable (f : List Byte) {i j k : Nat}

@[simp] theorem flipBit_length (i k : Nat) : (flipBit f i k).length = f.length := List.length_modify ..

theorem byteAt_flipBit_of_ne (h : i ≠ j) (k : Nat) : byteAt (flipBit f i k) j = byteAt f j := by
  simp [byteAt, flipBit, List.getD_eq_getElem?_getD, h]

theorem byteAt_flipBit_ne (hi : i < f.length) (hk : k < 8) : byteAt (flipBit f i k) i ≠ byteAt f i := by
  have hflip : byteAt (flipBit f i k) i = byteAt f i ^^^ (1#8 <<< k) := by simp [byteAt, flipBit, hi]
  rw [hflip]
  exact xor_bit_ne_self _ hk

@[simp] theorem middleOf_length : (middleOf f).length = f.length - 3 - 1 := by simp [middleOf, slice]

/-- The middle section begins at index 1 (R12). -/
theorem middleOf_flipBit_inside (hi : 1 ≤ i) (k : Nat) :
    middleOf (flipBit f i k) = flipBit (middleOf f) (i - 1) k := by
  rw [middleOf, flipBit_length, slice, flipBit, List.take_modify, List.drop_modify_of_ge _ _ _ _ hi]
  rfl

theorem middleOf_flipBit_after (h1 : 1 ≤ i) (h2 : f.length - 3 ≤ i) (k : Nat) :
    middleOf (flipBit f i k) = middleOf f := by
  rw [middleOf_flipBit_inside f h1, flipBit, List.modify_eq_self (by rw [middleOf_length]; omega)]

theorem crcField_flipBit_before (h : i < f.length - 3) (k : Nat) : crcField (flipBit f i k) = crcField f := by
  rw [crcField, flipBit_length, byteAt_flipBit_of_ne f (by omega), byteAt_flipBit_of_ne f (by omega), crcField]

theorem crcField_flipBit_ne (hf : 3 ≤ f.length) (h1 : f.length - 3 ≤ i) (h2 : i < f.length - 1) (hk : k < 8) :
    crcField (flipBit f i k) ≠ crcField f := by
  rw [crcField, crcField, flipBit_length, ne_eq, be16_inj]
  rintro ⟨hhi, hlo⟩
  obtain rfl | rfl : i = f.length - 3 ∨ i = f.length - 2 := by omega
  · exact byteAt_flipBit_ne f (by omega) hk hhi
  · exact byteAt_flipBit_ne f (by omega) hk hlo

theorem lenField_flipBit_ne (hf : 3 ≤ f.length) (h1 : 1 ≤ i) (h2 : i < 3) (hk : k < 8) :
    lenField (flipBit f i k) ≠ lenField f := by
  rw [lenField, lenField, ne_eq, le16_inj]
  rintro ⟨hlo, hhi⟩
  obtain rfl | rfl : i = 1 ∨ i = 2 := by omega
  · exact byteAt_flipBit_ne f (by omega) hk hlo
  · exact byteAt_flipBit_ne f (by omega) hk hhi

end

/-! ### Which test sees it -/

section
variable {f : List Byte} {i k : Nat}

theorem delimOk_iff : delimOk f = true ↔
    byteAt f 0 = Config.startMark ∧ byteAt f (f.length - 1) = Config.endMark := by
  simp [delimOk]

theorem lenOk_iff : lenOk f = true ↔ (lenField f).toNat = f.length - 6 := beq_iff_eq

theorem crcOk_iff : crcOk f = true ↔ crc16 (middleOf f) = crcField f := beq_iff_eq

theorem delimOk_flipBit (h : delimOk f = true) (hi : i < f.length) (hend : i = 0 ∨ i = f.length - 1)
    (hk : k < 8) : delimOk (flipBit f i k) = false := by
  obtain ⟨hfirst, hlast⟩ := delimOk_iff.mp h
  rw [Bool.eq_false_iff, ne_eq, delimOk_iff, flipBit_length, ← hfirst, ← hlast]
  rintro ⟨hfirst', hlast'⟩
  rcases hend with rfl | rfl
  · exact byteAt_flipBit_ne f hi hk hfirst'
  · exact byteAt_flipBit_ne f hi hk hlast'

theorem lenOk_flipBit (h : lenOk f = true) (hf : 3 ≤ f.length) (h1 : 1 ≤ i) (h2 : i < 3) (hk : k < 8) :
    lenOk (flipBit f i k) = false := by
  rw [Bool.eq_false_iff, ne_eq, lenOk_iff, flipBit_length, ← lenOk_iff.mp h, BitVec.toNat_inj]
  exact lenField_flipBit_ne f hf h1 h2 hk

/-- The recomputed CRC changes and the embedded one does not. -/
theorem crcOk_flipBit_middle (h : crcOk f = true) (h1 : 1 ≤ i) (h2 : i < f.length - 3) (hk : k < 8) :
    crcOk (flipBit f i k) = false := by
  rw [Bool.eq_false_iff, ne_eq, crcOk_iff, crcField_flipBit_before f h2, ← crcOk_iff.mp h,
    middleOf_flipBit_inside f h1]
  exact crc16_flipBit_ne (by rw [middleOf_length]; omega) hk

/-- The embedded CRC changes and the recomputed one does not. -/
theorem crcOk_flipBit_crcField (h : crcOk f = true) (hf : 11 ≤ f.length) (h1 : f.length - 3 ≤ i)
    (h2 : i < f.length - 1) (hk : k < 8) : crcOk (flipBit f i k) = false := by
  rw [Bool.eq_false_iff, ne_eq, crcOk_iff, middleOf_flipBit_after f (by omega) h1, crcOk_iff.mp h]
  exact (crcField_flipBit_ne f (by omega) h1 h2 hk).symm

/-- The flags of a check of at least 11 bytes are the tests of R161. -/
theorem fchk_flags (p : Params) (hf : 11 ≤ f.length) :
    (fchk p f).delimOk = delimOk f ∧ (fchk p f).lenOk = lenOk f ∧ (fchk p f).crcOk = crcOk f ∧
      (fchk p f).ok = (delimOk f && lenOk f && crcOk f) := by
  rw [fchk, if_neg (show ¬ f.length < Config.minFrame from Nat.not_lt.mpr hf)]
  exact ⟨rfl, rfl, rfl, rfl⟩

end

/-- Settles O19: the changed byte is a mark, a byte of the middle section or a byte of the CRC field, and the
test of each compares it, or the CRC of the middle section, with a value that the flip leaves alone. -/
theorem anySingleBitFlipIsRejected : Obligations.AnySingleBitFlipIsRejected := by
  intro p f i k hok hi hk
  have hf := fchk_ok_length hok
  obtain ⟨-, -, -, hverdict⟩ := fchk_flags p hf
  rw [hverdict, Bool.and_eq_true, Bool.and_eq_true] at hok
  obtain ⟨⟨hdelim, hlen⟩, hcrc⟩ := hok
  obtain ⟨hdelim', hlen', hcrc', hverdict'⟩ := fchk_flags (f := flipBit f i k) p (by rwa [flipBit_length])
  rw [hdelim', hlen', hcrc']
  have hmiddle : 1 ≤ i → i < f.length - 3 → crcOk (flipBit f i k) = false :=
    fun h1 h2 => crcOk_flipBit_middle hcrc h1 h2 hk
  have hfield : f.length - 3 ≤ i → i < f.length - 1 → crcOk (flipBit f i k) = false :=
    fun h1 h2 => crcOk_flipBit_crcField hcrc hf h1 h2 hk
  have hmarks : i = 0 ∨ i = f.length - 1 → delimOk (flipBit f i k) = false :=
    fun hend => delimOk_flipBit hdelim hi hend hk
  have hreject : (fchk p (flipBit f i k)).ok = false := by
    rw [hverdict']
    obtain hend | ⟨h1, h2⟩ | ⟨h1, h2⟩ : (i = 0 ∨ i = f.length - 1) ∨ (1 ≤ i ∧ i < f.length - 3) ∨
        (f.length - 3 ≤ i ∧ i < f.length - 1) := by omega
    · rw [hmarks hend, Bool.false_and, Bool.false_and]
    · rw [hmiddle h1 h2, Bool.and_false]
    · rw [hfield h1 h2, Bool.and_false]
  refine ⟨hmiddle, fun h1 h2 => lenOk_flipBit hlen (by omega) h1 h2 hk, hfield, hmarks, hreject, ?_⟩
  rintro s rfl
  exact (verify_answers_iff s _ false).mpr hreject

end Sys2Proof.Machine
end

section
/-!
PROOFS. The control operations (44_control.md R180 to R182): the reset event, SRST and CLRERR. Each decodes
from its own word, and its meaning is one of the shared operations `hardReset`, `softReset`, `clearErrors`.
-/

namespace Sys2Proof.Machine

/-- Settles O38: the meaning of the reset event, with every field of the reset state written out. -/
theorem resetEmptiesEverything : Obligations.ResetEmptiesEverything :=
  ⟨fun _ => rfl, exec_reset⟩

/-- Settles O40: the meaning of SRST, with the reset values of the registers outside FCHK written out. -/
theorem srstKeepsTheHistories : Obligations.SrstKeepsTheHistories :=
  ⟨fun _ => rfl, exec_srst⟩

/-- Settles O41: the meaning of CLRERR, with `E_CAUSE` = 0x00 for no error. -/
theorem clrErrClearsTheErrorRegistersOnly : Obligations.ClrErrClearsTheErrorRegistersOnly :=
  ⟨fun _ => rfl, exec_clrErr⟩

end Sys2Proof.Machine
end

section
/-!
PROOFS. The exceptions (60_exceptions.md): every issued operation completes, one that raises too; the trap entry
of BadOp; and the cause rows, those of EncodingError each an ENC whose first failing test is the row's.
-/

namespace Sys2Proof.Machine

/-! ### Every operation completes -/

/-- Nothing writes the parameters (R7) or the queue of what is still to arrive (log 13). -/
theorem Wrote.params_arrivals {i : Instr} {s t : State} (h : Wrote i s t) :
    t.params = s.params ∧ t.arrivals = s.arrivals := by
  cases h <;> exact ⟨rfl, rfl⟩

/-- Settles O51: the step is the instruction's meaning, which completes and writes only what its unit owns. -/
theorem everyIssuedOperationCompletes : Obligations.EveryIssuedOperationCompletes := by
  intro s a later i hq hd
  obtain ⟨t, ht⟩ := exec_completes { s with arrivals := later } i
  exact ⟨t, (stepRunsTheDecodedInstruction s a later i hq hd).trans ht, (exec_wrote ht).params_arrivals⟩

/-! ### BadOp -/

/-- Settles O43: both rows are the trap entry, with the code and the flag of BadOp in numbers. -/
theorem badOpChangesOnlyTheErrorRegisters : Obligations.BadOpChangesOnlyTheErrorRegisters :=
  fun s op => ⟨exec_unassignedOp s op, exec_causeBadOp s op⟩

/-! ### The cause rows -/

section
variable {p : Params} {dst src fn payload : List Byte}

theorem causeDstLen_wellFormed_iff :
    (Instr.causeDstLen dst src fn payload).wellFormed p = true ↔ dst.length ≠ 2 := by
  simp [Instr.wellFormed]

theorem causeSrcLen_wellFormed_iff :
    (Instr.causeSrcLen dst src fn payload).wellFormed p = true ↔ dst.length = 2 ∧ src.length ≠ 2 := by
  simp [Instr.wellFormed]

theorem causeFnLen_wellFormed_iff : (Instr.causeFnLen dst src fn payload).wellFormed p = true ↔
    dst.length = 2 ∧ src.length = 2 ∧ fn.length ≠ 1 := by
  simp [Instr.wellFormed, and_assoc]

theorem causePayloadLen_wellFormed_iff : (Instr.causePayloadLen dst src fn payload).wellFormed p = true ↔
    dst.length = 2 ∧ src.length = 2 ∧ fn.length = 1 ∧ p.payloadMax.val < payload.length := by
  simp [Instr.wellFormed, and_assoc]

end

/-- Settles O44: the condition of a cause row is that its test of R199 is the first to fail, and the row means
what ENC means. -/
theorem causeRowsEndWithTheirCode : Obligations.CauseRowsEndWithTheirCode := by
  refine ⟨exec_causeNone, ?_, fun s op => (badOpChangesOnlyTheErrorRegisters s op).2⟩
  intro s dst src fn payload i code recorded hrow hw
  obtain ⟨hdstRow, hsrcRow, hfnRow, hpayRow⟩ := encRaisesTheFirstFailingTest s dst src fn payload
  simp only [List.mem_cons, List.not_mem_nil, or_false, Prod.mk.injEq] at hrow
  rcases hrow with ⟨rfl, rfl, rfl⟩ | ⟨rfl, rfl, rfl⟩ | ⟨rfl, rfl, rfl⟩ | ⟨rfl, rfl, rfl⟩
  · exact hdstRow (causeDstLen_wellFormed_iff.mp hw)
  · obtain ⟨hdst, hsrc⟩ := causeSrcLen_wellFormed_iff.mp hw
    exact hsrcRow hdst hsrc
  · obtain ⟨hdst, hsrc, hfn⟩ := causeFnLen_wellFormed_iff.mp hw
    exact hfnRow hdst hsrc hfn
  · obtain ⟨hdst, hsrc, hfn, hpay⟩ := causePayloadLen_wellFormed_iff.mp hw
    exact hpayRow hdst hsrc hfn hpay

end Sys2Proof.Machine
end

section
/-!
PROOFS. The state after reset (10_state.md R34, R220), and the hazard of an end byte inside a good frame (R224):
SPLIT delivers the frame only when the first 0x16 behind its mark is its last byte.
-/

namespace Sys2Proof.Machine

/-! ### The state after reset -/

/-- Settles O39: each register of the fixed reset state has its value by definition. -/
theorem resetValues : Obligations.ResetValues := by
  unfold Obligations.ResetValues
  decide

/-! ### An end byte inside a good frame -/

/-- A good check has seen both marks, so the operand is what stands between them. -/
theorem eq_marks_of_fchk_ok {p : Params} {f : List Byte} (hok : (fchk p f).ok = true) :
    f = Config.startMark :: (slice f 1 (f.length - 1) ++ [Config.endMark]) := by
  obtain ⟨d0, d1, s0, s1, fn, pay, -, rfl⟩ := fchk_ok_iff.mp hok
  rw [buildFrame_eq_fieldsOf, fieldsOf_length, show pay.length + 11 - 1 = pay.length + 10 from rfl,
    slice_fieldsOf_inner]
  simp [fieldsOf]

/-- A buffer between two marks is its own only candidate exactly when no 0x16 stands between them: a
candidate holds none (R149), and without one the scan runs to the last byte. -/
theorem splitFrames_filter_eq_whole_iff {inner : List Byte} {keep : List Byte → Bool}
    (hkeep : keep (Config.startMark :: (inner ++ [Config.endMark])) = true) :
    (splitFrames (Config.startMark :: (inner ++ [Config.endMark]))).filter keep =
        [Config.startMark :: (inner ++ [Config.endMark])] ↔ Config.endMark ∉ inner := by
  constructor
  · intro hwhole
    have hmem := List.mem_of_mem_filter (hwhole ▸ List.mem_singleton_self _)
    obtain ⟨inner', heq, hend⟩ := splitFrames_shape hmem
    obtain rfl : inner = inner' := List.append_cancel_right (List.cons.inj heq).2
    exact hend
  · intro hend
    rw [splitFrames_candidate hend, splitFrames_nil, List.filter_singleton, hkeep]
    rfl

/-- Settles O27: SPLIT delivers the candidates of `split_frames` that `CAND_MAX` admits, and the good frame
is a buffer between two marks. -/
theorem frameSurvivesSplitIffNoInnerEnd : Obligations.FrameSurvivesSplitIffNoInnerEnd := by
  intro s f hok hadm
  have hmarks := eq_marks_of_fchk_ok hok
  calc (∃ t, exec (.split f) s = .next t ∧ t.candOut = s.candOut ++ [f])
      ↔ (splitFrames f).filter (fun c => s.params.candMax.admits c.length) = [f] := by
        rw [splitEqualsSplitFrames s f]
        simp
    _ ↔ Config.endMark ∉ slice f 1 (f.length - 1) := by
        generalize slice f 1 (f.length - 1) = inner at hmarks ⊢
        subst hmarks
        exact splitFrames_filter_eq_whole_iff hadm

end Sys2Proof.Machine
end
